-- ==== Sys2Proof/Word.lean ====
section
/-! DEFINITION. The widths of the values the machine handles (spec 00_scope.md R4, R6; 30_encoding.md R51). All quantities
are unsigned (R5), so a bit vector is always read as its unsigned value. -/

namespace Sys2Proof

/-- A memory byte, a general register, the delay timer, a keypad cell, an immediate KK. -/
abbrev Byte := BitVec 8

/-- An instruction word, the program counter, the index register, a stack cell, the stack pointer. -/
abbrev Word := BitVec 16

/-- One framebuffer cell (10_state.md R18). -/
abbrev Pixel := BitVec 32

/-- The number of a general register, an X or Y field (30_encoding.md R51). -/
abbrev Reg := BitVec 4

/-- The 4-bit N field: a sprite height (30_encoding.md R51). -/
abbrev Nibble := BitVec 4

/-- The 12-bit NNN field: an address immediate (30_encoding.md R51). -/
abbrev Addr12 := BitVec 12

/-- The flag register VF is general register 15 (10_state.md R11, R12). -/
abbrev regF : Reg := 0xF#4

end Sys2Proof
end

