-- ==== Sys2Proof/Syntax.lean ====
section
/-! DEFINITION. The instructions: one constructor per row of the dispatch table (30_encoding.md R55), with exactly the
operand fields of its format (R51, R52). Every value of every field is legal (R53), so the fields' types say all there is to
say of an instruction's form. -/

namespace Sys2Proof

/-- The 32 instructions, in the order of R55. In `shrVx` and `shlVx` the field Y is kept although R62 says it is ignored:
it is part of the word. -/
inductive Instr where
  | cls
  | ret
  | jp (nnn : Addr12)
  | call (nnn : Addr12)
  | seVxKK (x : Reg) (kk : Byte)
  | sneVxKK (x : Reg) (kk : Byte)
  | seVxVy (x y : Reg)
  | sneVxVy (x y : Reg)
  | ldVxKK (x : Reg) (kk : Byte)
  | addVxKK (x : Reg) (kk : Byte)
  | ldVxVy (x y : Reg)
  | orVxVy (x y : Reg)
  | andVxVy (x y : Reg)
  | xorVxVy (x y : Reg)
  | addVxVy (x y : Reg)
  | subVxVy (x y : Reg)
  | shrVx (x y : Reg)
  | subnVxVy (x y : Reg)
  | shlVx (x y : Reg)
  | ldINNN (nnn : Addr12)
  | jpV0NNN (nnn : Addr12)
  | rndVxKK (x : Reg) (kk : Byte)
  | drwVxVyN (x y : Reg) (n : Nibble)
  | skpVx (x : Reg)
  | sknpVx (x : Reg)
  | ldVxDT (x : Reg)
  | ldDTVx (x : Reg)
  | ldVxK (x : Reg)
  | addIVx (x : Reg)
  | ldBVx (x : Reg)
  | ldMemVx (x : Reg)
  | ldVxMem (x : Reg)
deriving DecidableEq, Repr

end Sys2Proof
end

