-- ==== Sys2Proof/Decode.lean ====
section
/-! DEFINITION. The decoder, the encoder and the dispatch table of 30_encoding.md R50 to R55. The decoder is total: a word
that matches no row is rejected by name (R56 then makes it a no-operation, see Machine/Step.lean). -/

namespace Sys2Proof

/-- Why the decoder gives no instruction. -/
inductive DecodeError where
  /-- The word matches none of the 32 patterns (30_encoding.md R56, R57). -/
  | unmatched (w : Word)
  /-- Fewer than the two bytes every instruction has (30_encoding.md R50). No fetch of the machine meets this. -/
  | truncated
deriving DecidableEq, Repr

/-! ### Fields (R51) -/

/-- T, bits 15 to 12. -/
def fieldT (w : Word) : BitVec 4 := w.extractLsb' 12 4

/-- X, bits 11 to 8. -/
def fieldX (w : Word) : Reg := w.extractLsb' 8 4

/-- Y, bits 7 to 4. -/
def fieldY (w : Word) : Reg := w.extractLsb' 4 4

/-- N, bits 3 to 0. -/
def fieldN (w : Word) : Nibble := w.extractLsb' 0 4

/-- KK, bits 7 to 0. -/
def fieldKK (w : Word) : Byte := w.extractLsb' 0 8

/-- NNN, bits 11 to 0. -/
def fieldNNN (w : Word) : Addr12 := w.extractLsb' 0 12

/-! ### The decoder -/

/-- The family T = 0 (R55 rows 1 and 2): both words are matched on all 16 bits (D35). -/
def decodeZero (w : Word) : Except DecodeError Instr :=
  if w = 0x00E0#16 then .ok .cls
  else if w = 0x00EE#16 then .ok .ret
  else .error (.unmatched w)

/-- The family T = 8 (R55 rows 11 to 19), selected by the low nibble. -/
def decodeAlu (w : Word) : Except DecodeError Instr :=
  match (fieldN w).toNat with
  | 0x0 => .ok (.ldVxVy (fieldX w) (fieldY w))
  | 0x1 => .ok (.orVxVy (fieldX w) (fieldY w))
  | 0x2 => .ok (.andVxVy (fieldX w) (fieldY w))
  | 0x3 => .ok (.xorVxVy (fieldX w) (fieldY w))
  | 0x4 => .ok (.addVxVy (fieldX w) (fieldY w))
  | 0x5 => .ok (.subVxVy (fieldX w) (fieldY w))
  | 0x6 => .ok (.shrVx (fieldX w) (fieldY w))
  | 0x7 => .ok (.subnVxVy (fieldX w) (fieldY w))
  | 0xE => .ok (.shlVx (fieldX w) (fieldY w))
  | _ => .error (.unmatched w)

/-- The family T = 0xE (R55 rows 24 and 25), selected by the low byte (D36). -/
def decodeKey (w : Word) : Except DecodeError Instr :=
  match (fieldKK w).toNat with
  | 0x9E => .ok (.skpVx (fieldX w))
  | 0xA1 => .ok (.sknpVx (fieldX w))
  | _ => .error (.unmatched w)

/-- The family T = 0xF (R55 rows 26 to 32), selected by the low byte (D36). -/
def decodeMisc (w : Word) : Except DecodeError Instr :=
  match (fieldKK w).toNat with
  | 0x07 => .ok (.ldVxDT (fieldX w))
  | 0x15 => .ok (.ldDTVx (fieldX w))
  | 0x0A => .ok (.ldVxK (fieldX w))
  | 0x1E => .ok (.addIVx (fieldX w))
  | 0x33 => .ok (.ldBVx (fieldX w))
  | 0x55 => .ok (.ldMemVx (fieldX w))
  | 0x65 => .ok (.ldVxMem (fieldX w))
  | _ => .error (.unmatched w)

/-- R55: the instruction a word is, most significant nibble first. -/
def decodeWord (w : Word) : Except DecodeError Instr :=
  match (fieldT w).toNat with
  | 0x0 => decodeZero w
  | 0x1 => .ok (.jp (fieldNNN w))
  | 0x2 => .ok (.call (fieldNNN w))
  | 0x3 => .ok (.seVxKK (fieldX w) (fieldKK w))
  | 0x4 => .ok (.sneVxKK (fieldX w) (fieldKK w))
  | 0x5 => if fieldN w = 0#4 then .ok (.seVxVy (fieldX w) (fieldY w)) else .error (.unmatched w)
  | 0x6 => .ok (.ldVxKK (fieldX w) (fieldKK w))
  | 0x7 => .ok (.addVxKK (fieldX w) (fieldKK w))
  | 0x8 => decodeAlu w
  | 0x9 => if fieldN w = 0#4 then .ok (.sneVxVy (fieldX w) (fieldY w)) else .error (.unmatched w)
  | 0xA => .ok (.ldINNN (fieldNNN w))
  | 0xB => .ok (.jpV0NNN (fieldNNN w))
  | 0xC => .ok (.rndVxKK (fieldX w) (fieldKK w))
  | 0xD => .ok (.drwVxVyN (fieldX w) (fieldY w) (fieldN w))
  | 0xE => decodeKey w
  | _ => decodeMisc w

/-- R50, R32: an instruction is two bytes, the first the more significant. The bytes left over are answered too. -/
def decode : List Byte → Except DecodeError (Instr × List Byte)
  | hi :: lo :: rest =>
    match decodeWord (hi ++ lo) with
    | .ok i => .ok (i, rest)
    | .error e => .error e
  | _ => .error .truncated

/-! ### The encoder -/

/-- The word of format A (R52). -/
def wordA (t : BitVec 4) (nnn : Addr12) : Word := t ++ nnn

/-- The word of format I (R52). -/
def wordI (t : BitVec 4) (x : Reg) (kk : Byte) : Word := t ++ (x ++ kk)

/-- The word of formats R and D (R52). -/
def wordR (t : BitVec 4) (x y : Reg) (n : Nibble) : Word := t ++ (x ++ (y ++ n))

/-- The word of an instruction (R52, R55). -/
def encode : Instr → Word
  | .cls => 0x00E0#16
  | .ret => 0x00EE#16
  | .jp nnn => wordA 0x1#4 nnn
  | .call nnn => wordA 0x2#4 nnn
  | .seVxKK x kk => wordI 0x3#4 x kk
  | .sneVxKK x kk => wordI 0x4#4 x kk
  | .seVxVy x y => wordR 0x5#4 x y 0x0#4
  | .sneVxVy x y => wordR 0x9#4 x y 0x0#4
  | .ldVxKK x kk => wordI 0x6#4 x kk
  | .addVxKK x kk => wordI 0x7#4 x kk
  | .ldVxVy x y => wordR 0x8#4 x y 0x0#4
  | .orVxVy x y => wordR 0x8#4 x y 0x1#4
  | .andVxVy x y => wordR 0x8#4 x y 0x2#4
  | .xorVxVy x y => wordR 0x8#4 x y 0x3#4
  | .addVxVy x y => wordR 0x8#4 x y 0x4#4
  | .subVxVy x y => wordR 0x8#4 x y 0x5#4
  | .shrVx x y => wordR 0x8#4 x y 0x6#4
  | .subnVxVy x y => wordR 0x8#4 x y 0x7#4
  | .shlVx x y => wordR 0x8#4 x y 0xE#4
  | .ldINNN nnn => wordA 0xA#4 nnn
  | .jpV0NNN nnn => wordA 0xB#4 nnn
  | .rndVxKK x kk => wordI 0xC#4 x kk
  | .drwVxVyN x y n => wordR 0xD#4 x y n
  | .skpVx x => wordI 0xE#4 x 0x9E#8
  | .sknpVx x => wordI 0xE#4 x 0xA1#8
  | .ldVxDT x => wordI 0xF#4 x 0x07#8
  | .ldDTVx x => wordI 0xF#4 x 0x15#8
  | .ldVxK x => wordI 0xF#4 x 0x0A#8
  | .addIVx x => wordI 0xF#4 x 0x1E#8
  | .ldBVx x => wordI 0xF#4 x 0x33#8
  | .ldMemVx x => wordI 0xF#4 x 0x55#8
  | .ldVxMem x => wordI 0xF#4 x 0x65#8

/-- The high byte of a word: bits 15 to 8 (20_memory.md R32). -/
def highByte (w : Word) : Byte := w.extractLsb' 8 8

/-- The low byte of a word: bits 7 to 0 (20_memory.md R32). -/
def lowByte (w : Word) : Byte := w.extractLsb' 0 8

/-- The bytes of a word as memory holds them, most significant first (20_memory.md R32). -/
def wordBytes (w : Word) : List Byte := [highByte w, lowByte w]

/-! ### The dispatch table of R55 as data -/

/-- The 32 pairs (mask, match) of R55, in its order. -/
def dispatchTable : List (Word × Word) :=
  [(0xFFFF#16, 0x00E0#16), (0xFFFF#16, 0x00EE#16), (0xF000#16, 0x1000#16), (0xF000#16, 0x2000#16),
   (0xF000#16, 0x3000#16), (0xF000#16, 0x4000#16), (0xF00F#16, 0x5000#16), (0xF00F#16, 0x9000#16)] ++
  [(0xF000#16, 0x6000#16), (0xF000#16, 0x7000#16), (0xF00F#16, 0x8000#16), (0xF00F#16, 0x8001#16),
   (0xF00F#16, 0x8002#16), (0xF00F#16, 0x8003#16), (0xF00F#16, 0x8004#16), (0xF00F#16, 0x8005#16)] ++
  [(0xF00F#16, 0x8006#16), (0xF00F#16, 0x8007#16), (0xF00F#16, 0x800E#16), (0xF000#16, 0xA000#16),
   (0xF000#16, 0xB000#16), (0xF000#16, 0xC000#16), (0xF000#16, 0xD000#16), (0xF0FF#16, 0xE09E#16)] ++
  [(0xF0FF#16, 0xE0A1#16), (0xF0FF#16, 0xF007#16), (0xF0FF#16, 0xF015#16), (0xF0FF#16, 0xF00A#16),
   (0xF0FF#16, 0xF01E#16), (0xF0FF#16, 0xF033#16), (0xF0FF#16, 0xF055#16), (0xF0FF#16, 0xF065#16)]

/-- A word matches a row when the masked word is the row's match (R55). -/
def rowMatches (w : Word) (row : Word × Word) : Bool := decide (w &&& row.1 = row.2)

/-- The row of R55 an instruction belongs to, counted from 0 (R55's number less 1). -/
def Instr.row : Instr → Nat
  | .cls => 0
  | .ret => 1
  | .jp _ => 2
  | .call _ => 3
  | .seVxKK _ _ => 4
  | .sneVxKK _ _ => 5
  | .seVxVy _ _ => 6
  | .sneVxVy _ _ => 7
  | .ldVxKK _ _ => 8
  | .addVxKK _ _ => 9
  | .ldVxVy _ _ => 10
  | .orVxVy _ _ => 11
  | .andVxVy _ _ => 12
  | .xorVxVy _ _ => 13
  | .addVxVy _ _ => 14
  | .subVxVy _ _ => 15
  | .shrVx _ _ => 16
  | .subnVxVy _ _ => 17
  | .shlVx _ _ => 18
  | .ldINNN _ => 19
  | .jpV0NNN _ => 20
  | .rndVxKK _ _ => 21
  | .drwVxVyN _ _ _ => 22
  | .skpVx _ => 23
  | .sknpVx _ => 24
  | .ldVxDT _ => 25
  | .ldDTVx _ => 26
  | .ldVxK _ => 27
  | .addIVx _ => 28
  | .ldBVx _ => 29
  | .ldMemVx _ => 30
  | .ldVxMem _ => 31

/-- The pair (mask, match) of an instruction's row. -/
def Instr.maskMatch (i : Instr) : Word × Word := dispatchTable.getD i.row (0#16, 0xFFFF#16)

/-- The number of words a row matches: one for each value of the bits its mask leaves out. -/
def rowSize (row : Word × Word) : Nat :=
  2 ^ (16 - (List.range 16).countP (fun k => row.1.getLsbD k))

/-! ### The opcode table's numbering -/

/-- The instruction word of a row of spec/opcode_table.json: its bits numbered from the least significant bit of the
first word (all rows are one word of 16 bits, so every bit above nbits is 0). -/
def tableWord (nbits w : Nat) : Word := BitVec.ofNat 16 (w % 2 ^ nbits)

/-- The instruction the decoder reads from the bytes of such a word, laid out as memory holds them. -/
def decodeTableWord (nbits w : Nat) : Option Instr :=
  match decode (wordBytes (tableWord nbits w)) with
  | .ok (i, _) => some i
  | .error _ => none

end Sys2Proof
end

