-- ==== Sys2Proof/Config.lean ====
section
/-! DEFINITION. What is fixed for the machine (00_scope.md R4), the parameters R4 leaves open, and the one free value
(10_state.md R22). The parameters' default values stand in Machine/Defaults.lean. -/

namespace Sys2Proof.Config

/-- MEM_SIZE (R4). -/
def memSize : Nat := 4096

/-- PROG_BASE, the reset value of pc and the load address of the image (R4). -/
def progBase : Nat := 0x200

/-- MAX_IMAGE, the greatest image length (R4). -/
def maxImage : Nat := 0xE00

/-- FB_W, the framebuffer's columns (R4). -/
def fbWidth : Nat := 64

/-- FB_H, the framebuffer's rows (R4). -/
def fbHeight : Nat := 32

/-- The number of framebuffer cells (R4, 10_state.md R18). -/
def fbCells : Nat := 2048

/-- The length of FONT in bytes (R4, 10_state.md R26). -/
def fontLength : Nat := 80

/-- The parameters that R4 marks as decided and has the model take as an argument (log entry 1). They are plain data in
State, so that every statement about a state is a statement about every value of them. -/
structure Params where
  /-- STACK_DEPTH (D1, log entry 2). -/
  stackDepth : Nat
  /-- PIXEL_ON (D13, log entry 3). -/
  pixelOn : Pixel
  /-- FONT (10_state.md R26, D17, log entry 4). -/
  font : List Byte
deriving DecidableEq, Repr

/-- DESIGN CHOICE (log entry 5). The free byte that the n-th draw of CXKK takes when the host drives none on the `rnd`
port. It has no body: nothing is known of it, so a claim holds for every sequence of draws (10_state.md R22). -/
opaque freeRnd : Nat → Byte

end Sys2Proof.Config
end

