-- ==== Sys2Proof/Machine/Flags.lean ====
section
/-! DEFINITION. The values written to VF as a flag (10_state.md R12). There is no other flag. -/

namespace Sys2Proof.Machine

/-- A flag is 1 or 0. -/
def flagByte (b : Bool) : Byte := if b then 1#8 else 0#8

/-- 8XY4: the 9-bit sum exceeds 255 (43_alu.md R95). -/
def carryOut (a b : Byte) : Bool := decide (255 < a.toNat + b.toNat)

/-- 8XY5 and 8XY7: the minuend is strictly greater (43_alu.md R96, R98). -/
def noBorrow (a b : Byte) : Bool := decide (b.toNat < a.toNat)

/-- 8XY6 and 8XYE: bit 0 before the shift, in both (43_alu.md R97, R99). -/
def lowBit (a : Byte) : Bool := a.getLsbD 0

end Sys2Proof.Machine
end

