-- ==== Sys2Proof/Machine/Operands.lean ====
section
/-! DEFINITION. The operand forms and the arithmetic on them (30_encoding.md R53, 43_alu.md R100): everything is unsigned,
nothing is sign-extended, scaled or shifted. -/

namespace Sys2Proof.Machine

/-- What one tick makes of the timer: 0 stays 0 (60_exceptions.md R141). -/
def tickByte (b : Byte) : Byte := if b = 0#8 then 0#8 else b - 1#8

/-- zext_16(NNN) (R53). -/
def addrWord (nnn : Addr12) : Word := nnn.setWidth 16

/-- zext_16 of a byte (44_index_jump_random.md R102, 48_index_memory.md R120). -/
def byteWord (b : Byte) : Word := b.setWidth 16

/-- The sum of two bytes modulo 256 (42_immediate.md R85, 43_alu.md R95). -/
def sumByte (a b : Byte) : Byte := BitVec.ofNat 8 (a.toNat + b.toNat)

/-- The difference of two bytes, used only where it is positive (43_alu.md R96, R98). -/
def diffByte (a b : Byte) : Byte := BitVec.ofNat 8 (a.toNat - b.toNat)

/-- a >> 1, logical (43_alu.md R97). -/
def shiftRightByte (a : Byte) : Byte := BitVec.ofNat 8 (a.toNat / 2)

/-- (a << 1) mod 256 (43_alu.md R99). -/
def shiftLeftByte (a : Byte) : Byte := BitVec.ofNat 8 (2 * a.toNat)

/-- The number of the key a byte names: its value modulo 16 (46_key_skip.md R110, D11). -/
def keyNumber (b : Byte) : BitVec 4 := BitVec.ofNat 4 (b.toNat % 16)

/-- The three decimal digits of a byte: hundreds, tens, ones (48_index_memory.md R121). -/
def decimalDigits (b : Byte) : List Byte :=
  [BitVec.ofNat 8 (b.toNat / 100), BitVec.ofNat 8 (b.toNat / 10 % 10), BitVec.ofNat 8 (b.toNat % 10)]

/-- 45_draw.md R105: the framebuffer address decoder; each axis wraps on its own. -/
def fbIndex (x y : Nat) : Nat := y % Config.fbHeight * Config.fbWidth + x % Config.fbWidth

/-- 45_draw.md R107: bit 7 of a sprite row is the leftmost column (D15, log entry 13). -/
def spriteBit (row : Byte) (c : Nat) : Bool := row.getLsbD (7 - c)

end Sys2Proof.Machine
end

