-- ==== Sys2Proof/Machine/Defaults.lean ====
section
/-! DEFINITION. The default values of the parameters (00_scope.md R4, 10_state.md R26). -/

namespace Sys2Proof.Machine

/-- Glyph 0, which the document gives (10_state.md R26). -/
def glyphZero : List Byte := [0xF0#8, 0x90#8, 0x90#8, 0x90#8, 0xF0#8]

/-- PRESUMED (log entry 4). Glyphs 1 to 7, which 10_state.md R26 supplies from general knowledge. -/
def glyphs1to7 : List Byte :=
  [0x20#8, 0x60#8, 0x20#8, 0x20#8, 0x70#8] ++ [0xF0#8, 0x10#8, 0xF0#8, 0x80#8, 0xF0#8] ++
  [0xF0#8, 0x10#8, 0xF0#8, 0x10#8, 0xF0#8] ++ [0x90#8, 0x90#8, 0xF0#8, 0x10#8, 0x10#8] ++
  [0xF0#8, 0x80#8, 0xF0#8, 0x10#8, 0xF0#8] ++ [0xF0#8, 0x80#8, 0xF0#8, 0x90#8, 0xF0#8] ++
  [0xF0#8, 0x10#8, 0x20#8, 0x40#8, 0x40#8]

/-- PRESUMED (log entry 4). Glyphs 8 to F, which 10_state.md R26 supplies from general knowledge. -/
def glyphs8toF : List Byte :=
  [0xF0#8, 0x90#8, 0xF0#8, 0x90#8, 0xF0#8] ++ [0xF0#8, 0x90#8, 0xF0#8, 0x10#8, 0xF0#8] ++
  [0xF0#8, 0x90#8, 0xF0#8, 0x90#8, 0x90#8] ++ [0xE0#8, 0x90#8, 0xE0#8, 0x90#8, 0xE0#8] ++
  [0xF0#8, 0x80#8, 0x80#8, 0x80#8, 0xF0#8] ++ [0xE0#8, 0x90#8, 0x90#8, 0x90#8, 0xE0#8] ++
  [0xF0#8, 0x80#8, 0xF0#8, 0x80#8, 0xF0#8] ++ [0xF0#8, 0x80#8, 0xF0#8, 0x80#8, 0x80#8]

/-- The default FONT (10_state.md R26). -/
def defaultFont : List Byte := glyphZero ++ glyphs1to7 ++ glyphs8toF

/-- DESIGN CHOICE (log entries 2 to 4). The parameters' defaults: STACK_DEPTH 16 (D1), PIXEL_ON 0xFFFFFFFF (D13), FONT
(D17). -/
def defaultParams : Config.Params := ⟨16, 0xFFFFFFFF#32, defaultFont⟩

end Sys2Proof.Machine
end

