-- ==== Sys2Proof/Machine/Memory.lean ====
section
/-! DEFINITION. Memory and the framebuffer as plain data: a list of (index, value) pairs in one canonical form, the
indices strictly rising and no entry equal to what an unlisted index reads as (log entry 8). -/

namespace Sys2Proof.Machine

/-! ### Lists of the cells that differ from their background -/

/-- The value at an index: the first entry for it, or else the background's. -/
def cellRead {β : Type} (bg : Nat → β) : List (Nat × β) → Nat → β
  | [], a => bg a
  | p :: m, a => if p.1 = a then p.2 else cellRead bg m a

/-- The list without the entries for an index. -/
def cellErase {β : Type} : List (Nat × β) → Nat → List (Nat × β)
  | [], _ => []
  | p :: m, a => if p.1 = a then cellErase m a else p :: cellErase m a

/-- The list with an entry put before the first one of a greater index. -/
def cellInsert {β : Type} : List (Nat × β) → Nat → β → List (Nat × β)
  | [], a, v => [(a, v)]
  | p :: m, a, v => if a < p.1 then (a, v) :: p :: m else p :: cellInsert m a v

/-- A write: the old entry goes, and a new one is put in unless the value is the background's. -/
def cellWrite {β : Type} [DecidableEq β] (bg : Nat → β) (m : List (Nat × β)) (a : Nat) (v : β) : List (Nat × β) :=
  if v = bg a then cellErase m a else cellInsert (cellErase m a) a v

/-- Whether the indices rise strictly. -/
def cellsSorted {β : Type} : List (Nat × β) → Bool
  | [] => true
  | p :: m => m.all (fun q => decide (p.1 < q.1)) && cellsSorted m

/-- The canonical form: rising indices below the size, and no entry equal to the background. -/
def cellsWf {β : Type} [DecidableEq β] (size : Nat) (bg : Nat → β) (m : List (Nat × β)) : Bool :=
  cellsSorted m && m.all (fun p => decide (p.1 < size) && decide (p.2 ≠ bg p.1))

/-! ### Memory (20_memory.md) -/

/-- The contents of memory (10_state.md R20): the bytes that differ from what reset left there. -/
abbrev Memory := List Host.Cell

/-- What an unlisted address reads as: the reset contents (10_state.md R25), FONT at 0 to 79 and 0 above. -/
def resetByte (p : Config.Params) (a : Nat) : Byte :=
  if a < Config.fontLength then p.font.getD a 0#8 else 0#8

/-- The canonical form of memory. -/
def Memory.wf (p : Config.Params) (m : Memory) : Bool := cellsWf Config.memSize (resetByte p) m

/-- 20_memory.md R31: MemRead(a, 1), the address reduced modulo 4096 (D3, log entry 10). -/
def memRead (p : Config.Params) (m : Memory) (a : Nat) : Byte := cellRead (resetByte p) m (a % Config.memSize)

/-- 20_memory.md R31: MemWrite(a, 1, b), the address reduced modulo 4096 (D3, log entry 10). -/
def memWrite (p : Config.Params) (m : Memory) (a : Nat) (b : Byte) : Memory :=
  cellWrite (resetByte p) m (a % Config.memSize) b

/-! ### The framebuffer (10_state.md R18) -/

/-- The framebuffer: its cells that are not 0, by cell index. -/
abbrev Framebuffer := List (Nat × Pixel)

/-- What an unlisted cell reads as: dark (10_state.md R25). -/
def darkCell (_ : Nat) : Pixel := 0#32

/-- The canonical form of the framebuffer. -/
def Framebuffer.wf (fb : Framebuffer) : Bool := cellsWf Config.fbCells darkCell fb

/-- FB[k]. -/
def fbRead (fb : Framebuffer) (k : Nat) : Pixel := cellRead darkCell fb k

/-- FB[k] <- c. -/
def fbWrite (fb : Framebuffer) (k : Nat) (c : Pixel) : Framebuffer := cellWrite darkCell fb k c

end Sys2Proof.Machine
end

