-- ==== Sys2Proof/Machine/State.lean ====
section
/-! DEFINITION. The state of the machine (10_state.md R11 to R21), its value after reset (R24, R25), and the reasons a step
could stop. -/

namespace Sys2Proof.Machine

/-- The reasons a step could stop with a fault. There is none: the core raises no exception and every step completes
(60_exceptions.md R130, R132, log entry 14). Nothing raises one, which is what the spec says. -/
inductive Fault where
deriving DecidableEq, Repr

/-- The reasons a step could be refused. -/
inductive Refusal where
  /-- Raised by an arm of `exec` for an instruction that has no meaning yet; no arm does. Safe. -/
  | notModelled (mnemonic : String)
deriving DecidableEq, Repr

/-- The whole state. The fields `v` to `mem` are the spec's (10_state.md R21; the stack pointer is the length of
`stack`, log entry 7); `unimpl` is its output (R23), `params` its parameters (00_scope.md R4), and `rndIn` and `draws`
stand for its input `rnd` (R22). -/
structure State where
  /-- V0 to VF (R11). -/
  v : Vector Byte 16
  /-- The index register I (R13). -/
  i : Word
  /-- The program counter (R14). -/
  pc : Word
  /-- The call stack S[0..SP-1], oldest first (R15). -/
  stack : List Word
  /-- The delay timer DT (R17). -/
  dt : Byte
  /-- The framebuffer FB (R18). -/
  fb : Framebuffer
  /-- The keypad latch KP (R19), written by the host only. -/
  kp : Vector Byte 16
  /-- The memory MEM (R20). -/
  mem : Memory
  /-- The output `unimpl` of the last step (R23, 30_encoding.md R61, log entry 6). -/
  unimpl : Bool
  /-- The bytes the host drives on the `rnd` port, one for each coming CXKK (R22, log entry 5). -/
  rndIn : List Byte
  /-- How many bytes have been drawn freely (log entry 5). -/
  draws : Nat
  /-- The parameters; no step changes them (00_scope.md R4, log entry 1). -/
  params : Config.Params
deriving DecidableEq, Repr

/-- The state after reset of a machine with the given parameters (10_state.md R24, R25). Memory lists nothing, so it
reads as FONT and zeros. -/
def State.resetWith (p : Config.Params) : State where
  v := Vector.replicate 16 0#8
  i := 0#16
  pc := BitVec.ofNat 16 Config.progBase
  stack := []
  dt := 0#8
  fb := []
  kp := Vector.replicate 16 0#8
  mem := []
  unimpl := false
  rndIn := []
  draws := 0
  params := p

/-- The machine right after reset, with the parameters' defaults. -/
def State.reset : State := State.resetWith defaultParams

end Sys2Proof.Machine
end

