-- ==== Sys2Proof/Machine/Ops.lean ====
section
/-! DEFINITION. The named operations over the state that the meanings share. There is no operation that takes an exception
and none that returns from one: the machine has neither (60_exceptions.md R130, R135, R137, R138). -/

namespace Sys2Proof.Machine

/-- What a meaning and a step answer. -/
abbrev Result := Host.Outcome State Fault Refusal

/-! ### Registers -/

/-- V[x] (10_state.md R11). -/
def State.reg (s : State) (x : Reg) : Byte := s.v[x.toNat]

/-- V[x] <- b. -/
def State.setReg (s : State) (x : Reg) (b : Byte) : State := { s with v := s.v.set x.toNat b }

/-- VF <- flag, then V[x] <- result: the flag first, the result second, so that the result survives in VF (30_encoding.md
R64, D7, log entry 11). -/
def State.setFlagThenReg (s : State) (x : Reg) (flag : Bool) (result : Byte) : State :=
  (s.setReg regF (flagByte flag)).setReg x result

/-- The subtraction that does not wrap (43_alu.md R96, R98): when the minuend is greater the flag is 1 and the difference is
written; otherwise the flag is 0 and the destination is not written. -/
def State.subtractInto (s : State) (x : Reg) (minuend subtrahend : Byte) : State :=
  if noBorrow minuend subtrahend then s.setFlagThenReg x true (diffByte minuend subtrahend)
  else s.setReg regF (flagByte false)

/-! ### Memory (20_memory.md R31) -/

/-- MemRead(a, 1). -/
def State.readByte (s : State) (a : Nat) : Byte := memRead s.params s.mem a

/-- MemWrite(a, 1, b). -/
def State.writeByte (s : State) (a : Nat) (b : Byte) : State := { s with mem := memWrite s.params s.mem a b }

/-- Writes of bytes to consecutive addresses, the first to the lowest; each address is reduced on its own. -/
def State.storeBytes (s : State) (a : Nat) : List Byte → State
  | [] => s
  | b :: bs => (s.writeByte a b).storeBytes (a + 1) bs

/-- The values of V0 to V[x] (48_index_memory.md R122). -/
def State.regsUpTo (s : State) (x : Reg) : List Byte := s.v.toList.take (x.toNat + 1)

/-- V[k] <- MemRead(a + k, 1) for k in 0..x (48_index_memory.md R123). -/
def State.loadRegs (s : State) (a : Nat) (x : Reg) : State :=
  { s with v := Vector.ofFn fun k : Fin 16 => if k.val ≤ x.toNat then s.readByte (a + k.val) else s.v[k] }

/-! ### Fetch, program counter and timer -/

/-- The word at pc, MemRead(pc, 2): big-endian, no side effect (20_memory.md R31, R32). -/
def State.fetchWord (s : State) : Word := s.readByte s.pc.toNat ++ s.readByte (s.pc.toNat + 1)

/-- pc <- (pc + 2) mod 65536 (30_encoding.md R54). -/
def State.advance (s : State) : State := { s with pc := s.pc + 2#16 }

/-- pc <- (pc - 2) mod 65536 (47_timer_keywait.md R117). -/
def State.rewind (s : State) : State := { s with pc := s.pc - 2#16 }

/-- pc <- target. -/
def State.jump (s : State) (target : Word) : State := { s with pc := target }

/-- if c then pc <- (pc + 2) mod 65536 (41_skips.md, 46_key_skip.md). -/
def State.skipIf (s : State) (c : Bool) : State := if c then s.advance else s

/-- The timer tick (60_exceptions.md R141). -/
def State.tick (s : State) : State := { s with dt := tickByte s.dt }

/-! ### The call stack (10_state.md R15, R16) -/

/-- SP, the depth of the stack (R16, log entry 7). -/
def State.sp (s : State) : Word := BitVec.ofNat 16 s.stack.length

/-- SP < STACK_DEPTH. -/
def State.stackHasRoom (s : State) : Bool := decide (s.stack.length < s.params.stackDepth)

/-- S[SP] <- w; SP <- SP + 1. -/
def State.push (s : State) (w : Word) : State := { s with stack := s.stack ++ [w] }

/-- SP <- SP - 1. -/
def State.pop (s : State) : State := { s with stack := s.stack.dropLast }

/-! ### The keypad latch (10_state.md R19) -/

/-- KP[k]. -/
def State.key (s : State) (k : BitVec 4) : Byte := s.kp[k.toNat]

/-- KeyPressed(b): the key number is reduced modulo 16, and pressed is nonzero (46_key_skip.md R110, D11, D12). -/
def State.keyPressed (s : State) (b : Byte) : Bool := decide (s.key (keyNumber b) ≠ 0#8)

/-- The sixteen key numbers, lowest first. -/
def keyNumbers : List (BitVec 4) :=
  [0#4, 1#4, 2#4, 3#4, 4#4, 5#4, 6#4, 7#4, 8#4, 9#4, 10#4, 11#4, 12#4, 13#4, 14#4, 15#4]

/-- The least k with KP[k] != 0 (47_timer_keywait.md R117). -/
def State.firstPressed (s : State) : Option (BitVec 4) := keyNumbers.find? fun k => decide (s.key k ≠ 0#8)

/-! ### The random input (10_state.md R22, log entry 5) -/

/-- The byte on the `rnd` port: the one the host drives, or else a free one. -/
def State.rnd (s : State) : Byte :=
  match s.rndIn with
  | [] => Config.freeRnd s.draws
  | b :: _ => b

/-- The draw is used up: the next one has no relation to it. -/
def State.consumeRnd (s : State) : State :=
  match s.rndIn with
  | [] => { s with draws := s.draws + 1 }
  | _ :: bs => { s with rndIn := bs }

/-! ### The framebuffer (10_state.md R18, 45_draw.md) -/

/-- FB[k]. -/
def State.pixel (s : State) (k : Nat) : Pixel := fbRead s.fb k

/-- The cells that the sprite bits of 1 fall on, in the order of the loops of 45_draw.md R106. -/
def State.spriteCells (s : State) (x0 y0 : Byte) (base n : Nat) : List Nat :=
  (List.range n).flatMap fun r =>
    ((List.range 8).filter fun c => spriteBit (s.readByte (base + r)) c).map fun c =>
      fbIndex (x0.toNat + c) (y0.toNat + r)

/-- The loop body of 45_draw.md R106 over a list of cells: note a lit cell, then XOR with PIXEL_ON. -/
def toggleCells (on : Pixel) : List Nat → Framebuffer × Bool → Framebuffer × Bool
  | [], acc => acc
  | k :: ks, (fb, hit) =>
    toggleCells on ks (fbWrite fb k (fbRead fb k ^^^ on), hit || decide (fbRead fb k ≠ 0#32))

/-! ### The parts of a step (30_encoding.md R54) -/

/-- What comes before execution: the pre-increment; and the output `unimpl` says that the word matched a pattern (R61). -/
def State.begin (s : State) : State := { s.advance with unimpl := false }

/-- A word that matches no pattern changes nothing (R56); the output `unimpl` says so (R61). -/
def State.unmatched (s : State) : State := { s with unimpl := true }

/-- What comes after execution: the timer tick. -/
def finishStep : Result → Result
  | .next s => .next s.tick
  | .fault r => .fault r
  | .refused r => .refused r

end Sys2Proof.Machine
end

