-- ==== Sys2Proof/Machine/Alu.lean ====
section
/-! DEFINITION. Load and add immediate (42_immediate.md) and the register-register family (43_alu.md). Source values are
read before any write (30_encoding.md R63). -/

namespace Sys2Proof.Machine

/-- 6XKK LD (R84). -/
def execLdVxKK (x : Reg) (kk : Byte) (s : State) : Result := .next (s.setReg x kk)

/-- 7XKK ADD (R85): modulo 256, no flag. -/
def execAddVxKK (x : Reg) (kk : Byte) (s : State) : Result := .next (s.setReg x (sumByte (s.reg x) kk))

/-- 8XY0 LD (R91). -/
def execLdVxVy (x y : Reg) (s : State) : Result := .next (s.setReg x (s.reg y))

/-- 8XY1 OR (R92): VF is not written (D8, log entry 12). -/
def execOrVxVy (x y : Reg) (s : State) : Result := .next (s.setReg x (s.reg x ||| s.reg y))

/-- 8XY2 AND (R93): VF is not written (D8, log entry 12). -/
def execAndVxVy (x y : Reg) (s : State) : Result := .next (s.setReg x (s.reg x &&& s.reg y))

/-- 8XY3 XOR (R94): VF is not written (D8, log entry 12). -/
def execXorVxVy (x y : Reg) (s : State) : Result := .next (s.setReg x (s.reg x ^^^ s.reg y))

/-- 8XY4 ADD (R95). -/
def execAddVxVy (x y : Reg) (s : State) : Result :=
  .next (s.setFlagThenReg x (carryOut (s.reg x) (s.reg y)) (sumByte (s.reg x) (s.reg y)))

/-- 8XY5 SUB (R96). -/
def execSubVxVy (x y : Reg) (s : State) : Result := .next (s.subtractInto x (s.reg x) (s.reg y))

/-- 8XY6 SHR (R97): Y is ignored (R62, D9, log entry 12). -/
def execShrVx (x _y : Reg) (s : State) : Result :=
  .next (s.setFlagThenReg x (lowBit (s.reg x)) (shiftRightByte (s.reg x)))

/-- 8XY7 SUBN (R98). -/
def execSubnVxVy (x y : Reg) (s : State) : Result := .next (s.subtractInto x (s.reg y) (s.reg x))

/-- 8XYE SHL (R99): the flag is bit 0, not bit 7; Y is ignored (R62, D9, log entry 12). -/
def execShlVx (x _y : Reg) (s : State) : Result :=
  .next (s.setFlagThenReg x (lowBit (s.reg x)) (shiftLeftByte (s.reg x)))

end Sys2Proof.Machine
end

