-- ==== Sys2Proof/Machine/Draw.lean ====
section
/-! DEFINITION. The draw (45_draw.md). -/

namespace Sys2Proof.Machine

/-- The state after the loops of R106 over the given cells and the write of the collision flag, which comes last. -/
def State.drawCells (s : State) (cells : List Nat) : State :=
  let out := toggleCells s.params.pixelOn cells (s.fb, false)
  { s with fb := out.1 }.setReg regF (flagByte out.2)

/-- DXYN DRW (R106): the coordinates, I and the sprite are read before any write. -/
def execDrwVxVyN (x y : Reg) (n : Nibble) (s : State) : Result :=
  .next (s.drawCells (s.spriteCells (s.reg x) (s.reg y) s.i.toNat n.toNat))

end Sys2Proof.Machine
end

