-- ==== Sys2Proof/Machine/Flow.lean ====
section
/-! DEFINITION. Screen clear and control flow (40_flow.md), and the computed jump (44_index_jump_random.md R102). In every
meaning pc already holds pc0 + 2 (00_scope.md R8, log entry 15). -/

namespace Sys2Proof.Machine

/-- 00E0 CLS (R70): every cell is 0. -/
def execCls (s : State) : Result := .next { s with fb := [] }

/-- 00EE RET (R71): pop into pc; nothing when the stack is empty. -/
def execRet (s : State) : Result :=
  match s.stack.getLast? with
  | some top => .next (s.pop.jump top)
  | none => .next s

/-- 1NNN JP (R72). -/
def execJp (nnn : Addr12) (s : State) : Result := .next (s.jump (addrWord nnn))

/-- 2NNN CALL (R73): push pc and jump; the whole instruction is ignored when the stack is full (D2, log entry 2). -/
def execCall (nnn : Addr12) (s : State) : Result :=
  if s.stackHasRoom then .next ((s.push s.pc).jump (addrWord nnn)) else .next s

/-- BNNN JP V0 (R102): the exact sum, not reduced (D4). -/
def execJpV0NNN (nnn : Addr12) (s : State) : Result := .next (s.jump (addrWord nnn + byteWord (s.reg 0#4)))

end Sys2Proof.Machine
end

