-- ==== Sys2Proof/Machine/Index.lean ====
section
/-! DEFINITION. Index load and add, and the random byte (44_index_jump_random.md, 48_index_memory.md R120). -/

namespace Sys2Proof.Machine

/-- ANNN LD I (R101). -/
def execLdINNN (nnn : Addr12) (s : State) : Result := .next { s with i := addrWord nnn }

/-- CXKK RND (R103): consumes one draw. -/
def execRndVxKK (x : Reg) (kk : Byte) (s : State) : Result := .next (s.consumeRnd.setReg x (s.rnd &&& kk))

/-- FX1E ADD I (R120): modulo 65536, no flag (D5). -/
def execAddIVx (x : Reg) (s : State) : Result := .next { s with i := s.i + byteWord (s.reg x) }

end Sys2Proof.Machine
end

