-- ==== Sys2Proof/Machine/Skips.lean ====
section
/-! DEFINITION. The conditional skips (41_skips.md, 46_key_skip.md). -/

namespace Sys2Proof.Machine

/-- 3XKK SE (R80). -/
def execSeVxKK (x : Reg) (kk : Byte) (s : State) : Result := .next (s.skipIf (s.reg x == kk))

/-- 4XKK SNE (R81). -/
def execSneVxKK (x : Reg) (kk : Byte) (s : State) : Result := .next (s.skipIf (s.reg x != kk))

/-- 5XY0 SE (R82). -/
def execSeVxVy (x y : Reg) (s : State) : Result := .next (s.skipIf (s.reg x == s.reg y))

/-- 9XY0 SNE (R83). -/
def execSneVxVy (x y : Reg) (s : State) : Result := .next (s.skipIf (s.reg x != s.reg y))

/-- EX9E SKP (R111). -/
def execSkpVx (x : Reg) (s : State) : Result := .next (s.skipIf (s.keyPressed (s.reg x)))

/-- EXA1 SKNP (R112). -/
def execSknpVx (x : Reg) (s : State) : Result := .next (s.skipIf (!s.keyPressed (s.reg x)))

end Sys2Proof.Machine
end

