-- ==== Sys2Proof/Machine/Timer.lean ====
section
/-! DEFINITION. Timer access and the key wait (47_timer_keywait.md). -/

namespace Sys2Proof.Machine

/-- FX07 LD Vx, DT (R115). -/
def execLdVxDT (x : Reg) (s : State) : Result := .next (s.setReg x s.dt)

/-- FX15 LD DT, Vx (R116): the tick of the same step follows. -/
def execLdDTVx (x : Reg) (s : State) : Result := .next { s with dt := s.reg x }

/-- FX0A LD Vx, K (R117): the lowest pressed key, or pc back at this instruction. -/
def execLdVxK (x : Reg) (s : State) : Result :=
  match s.firstPressed with
  | some k => .next (s.setReg x (k.setWidth 8))
  | none => .next s.rewind

end Sys2Proof.Machine
end

