-- ==== Sys2Proof/Machine/Transfer.lean ====
section
/-! DEFINITION. The stores and the load (48_index_memory.md R121 to R123). I is not changed (D16, log entry 12). -/

namespace Sys2Proof.Machine

/-- FX33 LD B, Vx (R121). -/
def execLdBVx (x : Reg) (s : State) : Result := .next (s.storeBytes s.i.toNat (decimalDigits (s.reg x)))

/-- FX55 LD [I], Vx (R122). -/
def execLdMemVx (x : Reg) (s : State) : Result := .next (s.storeBytes s.i.toNat (s.regsUpTo x))

/-- FX65 LD Vx, [I] (R123). -/
def execLdVxMem (x : Reg) (s : State) : Result := .next (s.loadRegs s.i.toNat x)

end Sys2Proof.Machine
end

