-- ==== Sys2Proof/Machine/Dispatch.lean ====
section
/-! DEFINITION. Execute (30_encoding.md R54, R55): one arm per instruction, run after the pre-increment of pc. -/

namespace Sys2Proof.Machine

def exec (i : Instr) (s : State) : Host.Outcome State Fault Refusal :=
  match i with
  | .cls => Sys2Proof.Machine.execCls s
  | .ret => Sys2Proof.Machine.execRet s
  | .jp nnn => Sys2Proof.Machine.execJp nnn s
  | .call nnn => Sys2Proof.Machine.execCall nnn s
  | .seVxKK x kk => Sys2Proof.Machine.execSeVxKK x kk s
  | .sneVxKK x kk => Sys2Proof.Machine.execSneVxKK x kk s
  | .seVxVy x y => Sys2Proof.Machine.execSeVxVy x y s
  | .sneVxVy x y => Sys2Proof.Machine.execSneVxVy x y s
  | .ldVxKK x kk => Sys2Proof.Machine.execLdVxKK x kk s
  | .addVxKK x kk => Sys2Proof.Machine.execAddVxKK x kk s
  | .ldVxVy x y => Sys2Proof.Machine.execLdVxVy x y s
  | .orVxVy x y => Sys2Proof.Machine.execOrVxVy x y s
  | .andVxVy x y => Sys2Proof.Machine.execAndVxVy x y s
  | .xorVxVy x y => Sys2Proof.Machine.execXorVxVy x y s
  | .addVxVy x y => Sys2Proof.Machine.execAddVxVy x y s
  | .subVxVy x y => Sys2Proof.Machine.execSubVxVy x y s
  | .shrVx x y => Sys2Proof.Machine.execShrVx x y s
  | .subnVxVy x y => Sys2Proof.Machine.execSubnVxVy x y s
  | .shlVx x y => Sys2Proof.Machine.execShlVx x y s
  | .ldINNN nnn => Sys2Proof.Machine.execLdINNN nnn s
  | .jpV0NNN nnn => Sys2Proof.Machine.execJpV0NNN nnn s
  | .rndVxKK x kk => Sys2Proof.Machine.execRndVxKK x kk s
  | .drwVxVyN x y n => Sys2Proof.Machine.execDrwVxVyN x y n s
  | .skpVx x => Sys2Proof.Machine.execSkpVx x s
  | .sknpVx x => Sys2Proof.Machine.execSknpVx x s
  | .ldVxDT x => Sys2Proof.Machine.execLdVxDT x s
  | .ldDTVx x => Sys2Proof.Machine.execLdDTVx x s
  | .ldVxK x => Sys2Proof.Machine.execLdVxK x s
  | .addIVx x => Sys2Proof.Machine.execAddIVx x s
  | .ldBVx x => Sys2Proof.Machine.execLdBVx x s
  | .ldMemVx x => Sys2Proof.Machine.execLdMemVx x s
  | .ldVxMem x => Sys2Proof.Machine.execLdVxMem x s

end Sys2Proof.Machine
end

