-- ==== Sys2Proof/Machine/Step.lean ====
section
/-! DEFINITION. One step (30_encoding.md R54): fetch, pre-increment, execute, timer tick, in this order and as one
transition. -/

namespace Sys2Proof.Machine

/-- One step. A word that matches no pattern is a no-operation (R56). -/
def step (s : State) : Host.Outcome State Fault Refusal :=
  match decodeWord s.fetchWord with
  | .ok i => finishStep (exec i s.begin)
  | .error _ => finishStep (.next s.begin.unmatched)

/-- The state with an instruction word of spec/opcode_table.json at the address step fetches from (20_memory.md R32). It
stands for the host's load of a program (70_reset_and_hazards.md R152, log entry 16). -/
def State.withFetchWord (s : State) (nbits w : Nat) : State := s.storeBytes s.pc.toNat (wordBytes (tableWord nbits w))

end Sys2Proof.Machine
end

