-- ==== Sys2Proof/WellFormed.lean ====
section
/-! DEFINITION. The well-formedness checks. An instruction needs none: each operand's type is its field's width and R53
(30_encoding.md) makes every value of every field legal, so every term of `Instr` is well formed, and what could be
ill formed are the two things handed to the machine from outside: the parameters (00_scope.md R4) and a program image
(70_reset_and_hazards.md R152). -/

namespace Sys2Proof

/-- R4: PIXEL_ON is not 0. -/
def Config.Params.pixelOk (p : Config.Params) : Bool := decide (p.pixelOn ≠ 0#32)

/-- The stack pointer is 16 bits wide and holds STACK_DEPTH when the stack is full (10_state.md R16). DEDUCED, log entry 2. -/
def Config.Params.depthOk (p : Config.Params) : Bool := decide (p.stackDepth < 65536)

/-- 10_state.md R26: FONT is 80 bytes and glyph 0 is F0 90 90 90 F0. -/
def Config.Params.fontOk (p : Config.Params) : Bool :=
  decide (p.font.length = Config.fontLength) &&
    decide (p.font.take 5 = [0xF0#8, 0x90#8, 0x90#8, 0x90#8, 0xF0#8])

/-- The constraints the spec puts on the parameters, all of them. -/
def Config.Params.valid (p : Config.Params) : Bool := p.pixelOk && p.depthOk && p.fontOk

/-- 70_reset_and_hazards.md R152: an image is at most MAX_IMAGE bytes. -/
def imageOk (img : List Byte) : Bool := decide (img.length ≤ Config.maxImage)

end Sys2Proof
end

