-- ==== Sys2Proof/Machine/Ports.lean ====
section
/-! DEFINITION. The host's ports (10_state.md R23), all but `step`: what the host may do between steps. The output `unimpl`
is the state's field of that name. -/

namespace Sys2Proof.Machine

/-- The port `reset` (70_reset_and_hazards.md R150): every element at its reset value, the loaded program gone. What the
host drives on the `rnd` port, and the free draws to come, are inputs and not state, so they stay. -/
def State.hostReset (s : State) : State :=
  { State.resetWith s.params with rndIn := s.rndIn, draws := s.draws }

/-- The port `load(addr, byte)`. -/
def State.loadByte (s : State) (a : Addr12) (b : Byte) : State := s.writeByte a.toNat b

/-- 60_exceptions.md R131: why the host starts no run. -/
inductive LoadError where
  /-- The image is longer than MAX_IMAGE bytes (70_reset_and_hazards.md R152, D19). -/
  | tooLong (length : Nat)
deriving DecidableEq, Repr

/-- 70_reset_and_hazards.md R152: byte n of the image goes to 0x200 + n; too long an image is refused. -/
def State.loadImage (s : State) (img : List Byte) : Except LoadError State :=
  if imageOk img then .ok (s.storeBytes Config.progBase img) else .error (.tooLong img.length)

/-- The port `key_wr(k, byte)` (60_exceptions.md R142). -/
def State.keyWrite (s : State) (k : BitVec 4) (b : Byte) : State := { s with kp := s.kp.set k.toNat b }

/-- The whole latch overwritten (60_exceptions.md R142, R144). -/
def State.setKeys (s : State) (keys : Vector Byte 16) : State := { s with kp := keys }

/-- The whole latch cleared (60_exceptions.md R144 d). -/
def State.clearKeys (s : State) : State := s.setKeys (Vector.replicate 16 0#8)

/-- The port `rnd`: the byte for the next CXKK that has none yet (10_state.md R22, R23). -/
def State.driveRnd (s : State) (b : Byte) : State := { s with rndIn := s.rndIn ++ [b] }

/-- The port `fb_rd(k)` (60_exceptions.md R143). -/
def State.fbPort (s : State) (k : BitVec 11) : Pixel := s.pixel k.toNat

end Sys2Proof.Machine
end

