-- ==== Sys2Proof/Machine/Driver.lean ====
section
/-! DEFINITION. One turn of the driver loop (60_exceptions.md R144), and when a program has finished
(70_reset_and_hazards.md R154). -/

namespace Sys2Proof.Machine

/-- The latch cleared in the state a step answers. -/
def clearKeysAfter : Result → Result
  | .next s => .next s.clearKeys
  | .fault r => .fault r
  | .refused r => .refused r

/-- Push the keys, take one step, clear the keys (R144 a, b, d). Rendering (c) changes nothing. -/
def driverTurn (keys : Vector Byte 16) (s : State) : Result := clearKeysAfter (step (s.setKeys keys))

/-- DESIGN CHOICE (70_reset_and_hazards.md R154, D28, log entry 17). The program has finished: pc is an address a below 0x1000
and the word there is 0x1000 | a, a jump to itself. What this does not say: the host may stop earlier, or never; the core
does not know that the program is finished and goes on stepping; the timer still runs; and a program may also end in a loop
of several instructions, which is not finished in this sense. -/
def State.finished (s : State) : Bool :=
  decide (s.pc.toNat < Config.memSize) && decide (s.fetchWord = 0x1000#16 ||| s.pc)

end Sys2Proof.Machine
end

