-- ==== Sys2Proof/Safety.lean ====
section
/-! DEFINITION. What counts as a good state and a good run: the invariants of 10_state.md R27, the states that steps and
permitted host actions reach (R10, R23, R27), and the words the statements use to say what an instruction leaves alone. -/

namespace Sys2Proof.Machine

/-! ### The invariant of R27 -/

/-- R27 (a): the stack holds at most STACK_DEPTH addresses. -/
def State.stackOk (s : State) : Bool := decide (s.stack.length ≤ s.params.stackDepth)

/-- R27 (b): every framebuffer cell is 0 or PIXEL_ON (the listed cells are the nonzero ones). -/
def State.pixelsOk (s : State) : Bool := s.fb.all fun p => decide (p.2 = s.params.pixelOn)

/-- R27, with the canonical forms of the framebuffer and of memory and the constraints on the parameters. -/
def State.inv (s : State) : Bool :=
  s.params.valid && s.stackOk && s.pixelsOk && s.fb.wf && Memory.wf s.params s.mem

/-! ### Reachable states (R10, R23, R27; 70_reset_and_hazards.md R151) -/

/-- Where a run is: before its first step, when the host may load memory, or after it (20_memory.md R43). -/
inductive Phase where
  | loading
  | running
deriving DecidableEq, Repr

/-- The states that steps and permitted host actions reach, from any machine with valid parameters. -/
inductive Reachable : Phase → State → Prop where
  | powerUp (p : Config.Params) : p.valid = true → Reachable .loading (State.resetWith p)
  | reset (f : Phase) (s : State) : Reachable f s → Reachable .loading s.hostReset
  | load (s : State) (a : Addr12) (b : Byte) : Reachable .loading s → Reachable .loading (s.loadByte a b)
  | keyWrite (f : Phase) (s : State) (k : BitVec 4) (b : Byte) : Reachable f s → Reachable f (s.keyWrite k b)
  | driveRnd (f : Phase) (s : State) (b : Byte) : Reachable f s → Reachable f (s.driveRnd b)
  | step (f : Phase) (s t : State) : Reachable f s → step s = .next t → Reachable .running t

/-- A run of n steps from s to t between and around which the host writes keys and drives random bytes as it likes, without a
reset (R10, R23); every state from which a step is taken satisfies `P`. -/
inductive HostedRun (P : State → Prop) : Nat → State → State → Prop where
  | start (s : State) : HostedRun P 0 s s
  | keyWrite (n : Nat) (s t : State) (k : BitVec 4) (b : Byte) : HostedRun P n s t → HostedRun P n s (t.keyWrite k b)
  | driveRnd (n : Nat) (s t : State) (b : Byte) : HostedRun P n s t → HostedRun P n s (t.driveRnd b)
  | step (n : Nat) (s t u : State) : HostedRun P n s t → P t → step t = .next u → HostedRun P (n + 1) s u

/-- n steps under fuel (70_reset_and_hazards.md R154), with no host action between them. -/
def runSteps : Nat → State → Result
  | 0, s => .next s
  | n + 1, s =>
    match step s with
    | .next t => runSteps n t
    | .fault r => .fault r
    | .refused r => .refused r

/-- The instruction at pc, if the word there is one. -/
def State.current (s : State) : Option Instr :=
  match decodeWord s.fetchWord with
  | .ok i => some i
  | .error _ => none

/-- The instruction at pc does not write the timer: no FX15 (10_state.md R17). -/
def State.leavesTimer (s : State) : Prop := ∀ x : Reg, s.current ≠ some (.ldDTVx x)

/-! ### Frames: what is the same in two states -/

/-- Only the listed general registers may differ; every other field is the same, and every byte of memory reads alike. -/
def OnlyRegs (xs : List Reg) (s t : State) : Prop :=
  t = { s with v := t.v } ∧ (∀ r : Reg, r ∉ xs → t.reg r = s.reg r) ∧ ∀ a : Nat, t.readByte a = s.readByte a

/-- Only pc may differ, and every byte of memory reads alike. -/
def OnlyPc (s t : State) : Prop := t = { s with pc := t.pc } ∧ ∀ a : Nat, t.readByte a = s.readByte a

/-- Only memory may differ, and only at the n addresses from `a` on, each reduced modulo 4096. -/
def OnlyBytes (a n : Nat) (s t : State) : Prop :=
  t = { s with mem := t.mem } ∧
    ∀ b : Nat, (∀ k : Nat, k < n → b % 4096 ≠ (a + k) % 4096) → t.readByte b = s.readByte b

/-- What address `a` reads as after the given bytes were stored from `base` on, the first to the lowest address, in a memory
that read as s does: the byte stored there, if one was, and the old byte otherwise. Addresses are taken modulo 4096. -/
def ReadsAfterStore (s : State) (base : Nat) (stored : List Byte) (a : Nat) (b : Byte) : Prop :=
  (∀ k : Nat, ∀ h : k < stored.length, (base + k) % 4096 = a % 4096 → b = stored[k]) ∧
    ((∀ k : Nat, k < stored.length → (base + k) % 4096 ≠ a % 4096) → b = s.readByte a)

/-- The machines of two states differ at most in the word that marks a lit cell, and the same cells are lit
(00_scope.md R4, D13). -/
def SameButPixelWord (s t : State) : Prop :=
  t = { s with fb := t.fb, params := { s.params with pixelOn := t.params.pixelOn } } ∧
    ∀ k : Nat, (t.pixel k = 0#32 ↔ s.pixel k = 0#32)

/-! ### The draw, as 45_draw.md R105 to R107 say where its bits fall -/

/-- A sprite bit of 1 of `DRW Vx, Vy, N` falls on cell k: row r of the sprite is the byte at I + r, its bit 7 - c stands c
columns to the right of V[X], and each coordinate wraps on its own. -/
def State.covered (s : State) (x y : Reg) (n : Nibble) (k : Nat) : Prop :=
  ∃ r c : Nat, r < n.toNat ∧ c < 8 ∧ (s.readByte (s.i.toNat + r)).getLsbD (7 - c) = true ∧
    k = ((s.reg y).toNat + r) % 32 * 64 + ((s.reg x).toNat + c) % 64

end Sys2Proof.Machine

namespace Sys2Proof

/-! ### Which registers an instruction may write (10_state.md R11, R12) -/

/-- R11's list of the instructions that write a register through their X operand (FX65 writes V0 to V[X]), and R12's of those
that write VF as a flag. -/
def Instr.mayWrite (i : Instr) (r : Reg) : Bool :=
  match i with
  | .cls => false
  | .ret => false
  | .jp _ => false
  | .call _ => false
  | .seVxKK _ _ => false
  | .sneVxKK _ _ => false
  | .seVxVy _ _ => false
  | .sneVxVy _ _ => false
  | .ldVxKK x _ => decide (r = x)
  | .addVxKK x _ => decide (r = x)
  | .ldVxVy x _ => decide (r = x)
  | .orVxVy x _ => decide (r = x)
  | .andVxVy x _ => decide (r = x)
  | .xorVxVy x _ => decide (r = x)
  | .addVxVy x _ => decide (r = x ∨ r = regF)
  | .subVxVy x _ => decide (r = x ∨ r = regF)
  | .shrVx x _ => decide (r = x ∨ r = regF)
  | .subnVxVy x _ => decide (r = x ∨ r = regF)
  | .shlVx x _ => decide (r = x ∨ r = regF)
  | .ldINNN _ => false
  | .jpV0NNN _ => false
  | .rndVxKK x _ => decide (r = x)
  | .drwVxVyN _ _ _ => decide (r = regF)
  | .skpVx _ => false
  | .sknpVx _ => false
  | .ldVxDT x => decide (r = x)
  | .ldDTVx _ => false
  | .ldVxK x => decide (r = x)
  | .addIVx _ => false
  | .ldBVx _ => false
  | .ldMemVx _ => false
  | .ldVxMem x => decide (r.toNat ≤ x.toNat)

/-- 10_state.md R14's writers of pc beside the pre-increment: the four jumps, the six skips and the key wait. -/
def Instr.mayWritePc (i : Instr) : Bool :=
  match i with
  | .cls => false
  | .ret => true
  | .jp _ => true
  | .call _ => true
  | .seVxKK _ _ => true
  | .sneVxKK _ _ => true
  | .seVxVy _ _ => true
  | .sneVxVy _ _ => true
  | .ldVxKK _ _ => false
  | .addVxKK _ _ => false
  | .ldVxVy _ _ => false
  | .orVxVy _ _ => false
  | .andVxVy _ _ => false
  | .xorVxVy _ _ => false
  | .addVxVy _ _ => false
  | .subVxVy _ _ => false
  | .shrVx _ _ => false
  | .subnVxVy _ _ => false
  | .shlVx _ _ => false
  | .ldINNN _ => false
  | .jpV0NNN _ => true
  | .rndVxKK _ _ => false
  | .drwVxVyN _ _ _ => false
  | .skpVx _ => true
  | .sknpVx _ => true
  | .ldVxDT _ => false
  | .ldDTVx _ => false
  | .ldVxK _ => true
  | .addIVx _ => false
  | .ldBVx _ => false
  | .ldMemVx _ => false
  | .ldVxMem _ => false

end Sys2Proof
end

