-- ==== Sys2Proof/Certificates/Slice0/Obligations.lean ====
section
/-! DEFINITION. The statements for the provers. `exec` runs after the pre-increment, so in a statement about `exec` the
state's pc is already pc0 + 2 (00_scope.md R8, log entry 15). -/

open Sys2Proof Sys2Proof.Machine

/-! ### Reset -/

/-- R24, R150: every element's value after power-up and after the port `reset`, for every value of the parameters; and what
the host loads afterwards changes nothing outside the image (R25). -/
def Obligations.ResetGivesEveryElementItsValue : Prop :=
  ∀ s : State, (s = State.reset ∨ (∃ p, s = State.resetWith p) ∨ ∃ u : State, s = u.hostReset) →
    (∀ r : Reg, s.reg r = 0#8) ∧ s.i = 0#16 ∧ s.pc = 0x200#16 ∧ s.stack = [] ∧ s.sp = 0#16 ∧ s.dt = 0#8 ∧
    (∀ k : Nat, s.pixel k = 0#32) ∧ (∀ k : BitVec 4, s.key k = 0#8) ∧
    (∀ a : Nat, a < 80 → s.readByte a = s.params.font.getD a 0#8) ∧
    (∀ a : Nat, 80 ≤ a → a < 4096 → s.readByte a = 0#8) ∧
    ∀ (img : List Byte) (t : State) (a : Nat), s.loadImage img = .ok t → 0x200 + img.length ≤ a → a < 4096 →
      t.readByte a = 0#8

/-- 10_state.md R26: after reset glyph 0 is at addresses 0 to 4, for every valid FONT; and the default FONT is valid. The
other 75 default bytes are the spec's general knowledge (log entry 4), and nothing is said of them. -/
def Obligations.GlyphZeroStandsAtAddressZero : Prop :=
  defaultParams.valid = true ∧
  ∀ p : Config.Params, p.valid = true →
    (List.range 5).map (State.resetWith p).readByte = [0xF0#8, 0x90#8, 0x90#8, 0x90#8, 0xF0#8]

/-! ### Memory -/

/-- 20_memory.md R31 (its reduction modulo 4096 is decision D3, log entry 10): MemRead and MemWrite use the address modulo
4096, a write is read back, and every byte it does not name is unchanged. -/
def Obligations.MemoryAccessWrapsAndWritesOneByte : Prop :=
  ∀ (s : State) (a b : Nat) (v : Byte),
    s.readByte (a + 4096) = s.readByte a ∧ s.writeByte (a + 4096) v = s.writeByte a v ∧
    (s.writeByte a v).readByte a = v ∧
    (a % 4096 ≠ b % 4096 → (s.writeByte a v).readByte b = s.readByte b) ∧
    s.writeByte a v = { s with mem := (s.writeByte a v).mem }

/-- The model's canonical form (log entry 8): two memories in it that read alike at every address are equal data, and so are
two framebuffers that show alike at every cell. -/
def Obligations.CanonicalFormIsUnique : Prop :=
  (∀ (p : Config.Params) (m m' : Memory), Memory.wf p m = true → Memory.wf p m' = true →
    (∀ a : Nat, a < 4096 → memRead p m a = memRead p m' a) → m = m') ∧
  (∀ fb fb' : Framebuffer, fb.wf = true → fb'.wf = true →
    (∀ k : Nat, k < 2048 → fbRead fb k = fbRead fb' k) → fb = fb')

/-- R32: the fetched word's bits 15 to 8 are the byte at the lower address, its bits 7 to 0 the byte at the higher one; and
the first byte of a loaded image is the high byte of the first instruction, byte n going to 0x200 + n. -/
def Obligations.FetchIsBigEndian : Prop :=
  (∀ s : State, s.fetchWord.extractLsb' 8 8 = s.readByte s.pc.toNat ∧
    s.fetchWord.extractLsb' 0 8 = s.readByte (s.pc.toNat + 1)) ∧
  ∀ (s t : State) (img : List Byte), s.loadImage img = .ok t →
    (∀ n : Nat, ∀ h : n < img.length, t.readByte (0x200 + n) = img[n]) ∧
    (s.pc = 0x200#16 → ∀ h : 1 < img.length, t.fetchWord = img[0] ++ img[1])

/-- 70_reset_and_hazards.md R152 (the rejection is decision D19, log entry 16): an image is loaded exactly when it has at most
0xE00 bytes, byte n going to 0x200 + n and every other byte and every other element staying as it was. -/
def Obligations.LoadPlacesTheImageOrRefusesIt : Prop :=
  ∀ (s : State) (img : List Byte),
    (img.length ≤ 0xE00 → ∃ t, s.loadImage img = .ok t ∧ OnlyBytes 0x200 img.length s t ∧
      ∀ n : Nat, ∀ h : n < img.length, t.readByte (0x200 + n) = img[n]) ∧
    (0xE00 < img.length → s.loadImage img = .error (.tooLong img.length))

/-- R40 (addresses modulo 4096 are decision D3, log entry 10): a store is seen by the very next fetch, wherever it went.
After a step that executes FX33 or FX55, each of the two fetched bytes is the byte just stored at its address, or the old
one where none was stored. -/
def Obligations.NextFetchSeesTheStore : Prop :=
  ∀ (s t : State) (x : Reg), step s = .next t →
    (s.current = some (.ldBVx x) → t.pc = s.pc + 2#16 ∧
      let digits := [BitVec.ofNat 8 ((s.reg x).toNat / 100), BitVec.ofNat 8 ((s.reg x).toNat / 10 % 10),
        BitVec.ofNat 8 ((s.reg x).toNat % 10)]
      ReadsAfterStore s s.i.toNat digits t.pc.toNat (highByte t.fetchWord) ∧
      ReadsAfterStore s s.i.toNat digits (t.pc.toNat + 1) (lowByte t.fetchWord)) ∧
    (s.current = some (.ldMemVx x) → t.pc = s.pc + 2#16 ∧
      let regs := (List.range (x.toNat + 1)).map fun k => s.reg (BitVec.ofNat 4 k)
      ReadsAfterStore s s.i.toNat regs t.pc.toNat (highByte t.fetchWord) ∧
      ReadsAfterStore s s.i.toNat regs (t.pc.toNat + 1) (lowByte t.fetchWord))

/-! ### Encoding -/

/-- Words of 95_test_vectors.md (T30-01 to T30-50), written out from R55, and what they stand for. That 5121 is unmatched is
decision D10 and that F118 is, D36, the spec's own choices (log entry 10). -/
def Obligations.SampleWordsDecode : Prop :=
  decode [0x00#8, 0xE0#8] = .ok (.cls, []) ∧ decode [0x00#8, 0xEE#8] = .ok (.ret, []) ∧
  decode [0x2D#8, 0xEF#8] = .ok (.call 0xDEF#12, []) ∧ decode [0x3A#8, 0x7F#8] = .ok (.seVxKK 0xA#4 0x7F#8, []) ∧
  decode [0x9E#8, 0xF0#8] = .ok (.sneVxVy 0xE#4 0xF#4, []) ∧ decode [0x7F#8, 0x01#8] = .ok (.addVxKK 0xF#4 0x01#8, []) ∧
  decode [0x8B#8, 0xC5#8] = .ok (.subVxVy 0xB#4 0xC#4, []) ∧ decode [0x81#8, 0x2E#8] = .ok (.shlVx 0x1#4 0x2#4, []) ∧
  decode [0xD1#8, 0x25#8] = .ok (.drwVxVyN 0x1#4 0x2#4 0x5#4, []) ∧ decode [0xE3#8, 0x9E#8] = .ok (.skpVx 0x3#4, []) ∧
  decode [0xF7#8, 0x0A#8] = .ok (.ldVxK 0x7#4, []) ∧ decode [0xFF#8, 0x65#8] = .ok (.ldVxMem 0xF#4, []) ∧
  decode [0x51#8, 0x21#8] = .error (.unmatched 0x5121#16) ∧ decode [0xF1#8, 0x18#8] = .error (.unmatched 0xF118#16)

/-- Decoding an encoded instruction gives it back with every operand, whatever bytes follow; every term of `Instr` is well
formed (R53). -/
def Obligations.DecodeOfEncodeIsTheInstruction : Prop :=
  ∀ (i : Instr) (rest : List Byte),
    decode (wordBytes (encode i) ++ rest) = .ok (i, rest) ∧ decodeTableWord 16 (encode i).toNat = some i

/-- Encoding a decoded word gives it back: no bit of a matched word is dropped, the ignored field of R62 included. -/
def Obligations.EncodeOfDecodeIsTheWord : Prop :=
  ∀ (w : Word) (i : Instr), decodeWord w = .ok i → encode i = w

/-- R55 with its masks (D10, D30, D35, D36, log entry 10): the decoder gives an instruction of a row exactly when the word
masked by the row's mask is the row's match, and rejects a word, by that word's name, exactly when it matches no row. -/
def Obligations.DecoderFollowsTheDispatchTable : Prop :=
  ∀ w : Word,
    (∀ k : Nat, ∀ h : k < dispatchTable.length,
      (rowMatches w dispatchTable[k] = true ↔ ∃ i, decodeWord w = .ok i ∧ i.row = k)) ∧
    (decodeWord w = .error (.unmatched w) ↔ ∀ row ∈ dispatchTable, rowMatches w row = false)

/-- R65, its numbers being those of the masks that decisions D10, D35 and D36 chose (log entry 10): no word matches two rows;
a row matches one word for each value of the bits its mask leaves out; of the 65536 words 43922 match a row and 21614 match
none. -/
def Obligations.DispatchRowsAreExclusive : Prop :=
  dispatchTable.length = 32 ∧
  (∀ w : Word, ∀ j k : Nat, ∀ hj : j < dispatchTable.length, ∀ hk : k < dispatchTable.length,
    rowMatches w dispatchTable[j] = true → rowMatches w dispatchTable[k] = true → j = k) ∧
  (∀ row ∈ dispatchTable, (List.range 65536).countP (fun w => rowMatches (BitVec.ofNat 16 w) row) = rowSize row) ∧
  (List.range 65536).countP (fun w => dispatchTable.any (rowMatches (BitVec.ofNat 16 w))) = 43922 ∧
  (List.range 65536).countP (fun w => !dispatchTable.any (rowMatches (BitVec.ofNat 16 w))) = 21614

/-- R57: the unmatched words, family by family. That the words 0NNN, 5XYn and 9XYn, EXkk and FXkk outside the patterns are
unmatched is the spec's own choice, decisions D35, D10 and D36 (log entry 10). -/
def Obligations.UnmatchedWordsAreThoseOfTheTable : Prop :=
  ∀ w : Word, (∃ e, decodeWord w = .error e) ↔
    (fieldT w = 0x0#4 ∧ w ≠ 0x00E0#16 ∧ w ≠ 0x00EE#16) ∨
    (fieldT w = 0x5#4 ∧ fieldN w ≠ 0x0#4) ∨
    (fieldT w = 0x8#4 ∧ fieldN w ∈ [0x8#4, 0x9#4, 0xA#4, 0xB#4, 0xC#4, 0xD#4, 0xF#4]) ∨
    (fieldT w = 0x9#4 ∧ fieldN w ≠ 0x0#4) ∨
    (fieldT w = 0xE#4 ∧ fieldKK w ∉ [0x9E#8, 0xA1#8]) ∨
    (fieldT w = 0xF#4 ∧ fieldKK w ∉ [0x07#8, 0x0A#8, 0x15#8, 0x1E#8, 0x33#8, 0x55#8, 0x65#8])

/-! ### The step -/

/-- R54 (the 16-bit wrap of pc is decision D4, log entry 10): when the two bytes at pc decode to an instruction, the step is
that instruction's `exec` after the pre-increment, and the tick after it. The output `unimpl` is 0 (log entry 6). -/
def Obligations.StepRunsTheDecodedInstruction : Prop :=
  ∀ (s : State) (i : Instr),
    decode [s.readByte s.pc.toNat, s.readByte (s.pc.toNat + 1)] = .ok (i, []) →
    ∃ t, exec i { s with pc := s.pc + 2#16, unimpl := false } = .next t ∧
      step s = .next { t with dt := if t.dt = 0#8 then 0#8 else t.dt - 1#8 }

/-- R56 (the no-operation among the document's two behaviours is decision D18, log entry 10): a word that matches no pattern
advances pc by 2, ticks the timer, sets the output `unimpl`, and changes nothing else. -/
def Obligations.UnmatchedWordDoesNothing : Prop :=
  ∀ (s : State) (w : Word), s.fetchWord = w → decodeWord w = .error (.unmatched w) →
    step s = .next { s with
      pc := s.pc + 2#16
      unimpl := true
      dt := if s.dt = 0#8 then 0#8 else s.dt - 1#8 }

/-- R132: every step completes, and so does every instruction, in every state; nothing faults and nothing is refused. -/
def Obligations.EveryStepCompletes : Prop :=
  (∀ s : State, ∃ t, step s = .next t) ∧ ∀ (i : Instr) (s : State), ∃ t, exec i s = .next t

/-- R141: the tick comes at the end of every step, after the instruction's writes; FX15 is the only other writer of DT. -/
def Obligations.TimerTicksOnceInEveryStep : Prop :=
  ∀ s t : State, step s = .next t →
    ((∀ x, s.current ≠ some (.ldDTVx x)) → t.dt = if s.dt = 0#8 then 0#8 else s.dt - 1#8) ∧
    ∀ x, s.current = some (.ldDTVx x) → t.dt = if s.reg x = 0#8 then 0#8 else s.reg x - 1#8

/-- R43: a step changes memory only when it executes FX33 or FX55. -/
def Obligations.OnlyStoresChangeMemory : Prop :=
  ∀ s t : State, step s = .next t →
    (∀ x, s.current ≠ some (.ldBVx x)) → (∀ x, s.current ≠ some (.ldMemVx x)) →
    t.mem = s.mem ∧ ∀ a : Nat, t.readByte a = s.readByte a

/-- R19: no step writes the keypad latch; and no step changes the parameters (log entry 1). -/
def Obligations.StepNeverWritesTheKeypad : Prop :=
  ∀ s t : State, step s = .next t → t.kp = s.kp ∧ t.params = s.params

/-- R18: a step changes the framebuffer only when it executes 00E0 or DXYN. -/
def Obligations.OnlyClsAndDrwChangeTheFramebuffer : Prop :=
  ∀ s t : State, step s = .next t →
    s.current ≠ some .cls → (∀ x y n, s.current ≠ some (.drwVxVyN x y n)) → t.fb = s.fb

/-- R11, R12: a step writes no general register but those its instruction's rule lists; in particular VF only as a flag or
through X. -/
def Obligations.OnlyListedRegistersAreWritten : Prop :=
  ∀ (s t : State) (r : Reg), step s = .next t → t.reg r ≠ s.reg r → ∃ i, s.current = some i ∧ i.mayWrite r = true

/-- R15, R16: only a taken CALL and a taken RET move the stack, by one entry; CALL pushes pc0 + 2 and RET goes to what it
pops. -/
def Obligations.OnlyCallAndRetMoveTheStack : Prop :=
  ∀ s t : State, step s = .next t → t.stack ≠ s.stack →
    ((∃ nnn, s.current = some (.call nnn)) ∧ t.stack = s.stack ++ [s.pc + 2#16]) ∨
    (s.current = some .ret ∧ s.stack = t.stack ++ [t.pc])

/-- R13 (the wrap at 65536 is decision D5, log entry 10): only ANNN and FX1E change I. -/
def Obligations.OnlyTwoInstructionsWriteI : Prop :=
  ∀ s t : State, step s = .next t → t.i ≠ s.i →
    (∃ nnn : Addr12, s.current = some (.ldINNN nnn) ∧ t.i.toNat = nnn.toNat) ∨
    ∃ x, s.current = some (.addIVx x) ∧ t.i.toNat = (s.i.toNat + (s.reg x).toNat) % 65536

/-- R14 (the 16-bit wrap is decision D4, log entry 10): a step that executes none of the listed writers of pc, or no
instruction, ends at pc0 + 2; the four skips on registers and the two on keys end at pc0 + 2 or pc0 + 4, the key wait at
pc0 + 2 or pc0. -/
def Obligations.OnlyListedInstructionsRedirectPc : Prop :=
  ∀ s t : State, step s = .next t →
    ((∀ i, s.current = some i → i.mayWritePc = false) → t.pc = s.pc + 2#16) ∧
    (∀ x y kk, s.current = some (.seVxKK x kk) ∨ s.current = some (.sneVxKK x kk) ∨ s.current = some (.seVxVy x y) ∨
      s.current = some (.sneVxVy x y) ∨ s.current = some (.skpVx x) ∨ s.current = some (.sknpVx x) →
      t.pc = s.pc + 2#16 ∨ t.pc = s.pc + 4#16) ∧
    ∀ x, s.current = some (.ldVxK x) → t.pc = s.pc + 2#16 ∨ t.pc = s.pc

/-- R22 (D20, log entry 5): a step that does not execute CXKK leaves the random input alone; one that does uses up one byte. -/
def Obligations.OnlyRndDrawsARandomByte : Prop :=
  ∀ s t : State, step s = .next t →
    ((∀ x kk, s.current ≠ some (.rndVxKK x kk)) → t.rndIn = s.rndIn ∧ t.draws = s.draws) ∧
    ∀ x kk, s.current = some (.rndVxKK x kk) →
      (∃ b, s.rndIn = b :: t.rndIn ∧ t.draws = s.draws) ∨ (s.rndIn = [] ∧ t.rndIn = [] ∧ t.draws = s.draws + 1)

/-! ### Screen clear and control flow -/

/-- R70: 00E0 sets every cell to 0 and changes nothing else. -/
def Obligations.ClsClearsEveryCell : Prop :=
  decodeWord 0x00E0#16 = .ok .cls ∧
  ∀ s : State, ∃ t, exec .cls s = .next t ∧ (∀ k : Nat, t.pixel k = 0#32) ∧ t = { s with fb := t.fb } ∧
    (∀ r, t.reg r = s.reg r) ∧ ∀ a : Nat, t.readByte a = s.readByte a

/-- R71: 00EE pops the top of the stack into pc, and does nothing when the stack is empty. -/
def Obligations.RetPopsIntoPc : Prop :=
  decodeWord 0x00EE#16 = .ok .ret ∧
  (∀ (s : State) (below : List Word) (top : Word), s.stack = below ++ [top] →
    ∃ t, exec .ret s = .next t ∧ t.pc = top ∧ t.stack = below ∧ t.sp = s.sp - 1#16 ∧
      t = { s with pc := t.pc, stack := t.stack } ∧ ∀ a : Nat, t.readByte a = s.readByte a) ∧
  (∀ s : State, s.stack = [] → exec .ret s = .next s) ∧
  ∀ s t : State, s.current = some .ret → s.stack = [] → step s = .next t →
    t.pc.toNat = (s.pc.toNat + 2) % 65536 ∧ t.stack = [] ∧ ∀ r, t.reg r = s.reg r

/-- R72: 1NNN loads pc with NNN and changes nothing else. -/
def Obligations.JpLoadsPc : Prop :=
  ∀ (nnn : Addr12) (s : State), decodeWord (wordA 0x1#4 nnn) = .ok (.jp nnn) ∧
    ∃ t, exec (.jp nnn) s = .next t ∧ t.pc.toNat = nnn.toNat ∧ OnlyPc s t

/-- R73 (the depth is decision D1 and the ignored jump D2, log entry 2): with room on the stack 2NNN pushes pc, adds 1 to SP
and loads pc with NNN; on a full stack it changes nothing. -/
def Obligations.CallPushesPcAndJumps : Prop :=
  ∀ (nnn : Addr12) (s : State), decodeWord (wordA 0x2#4 nnn) = .ok (.call nnn) ∧
    (s.stack.length < s.params.stackDepth →
      ∃ t, exec (.call nnn) s = .next t ∧ t.stack = s.stack ++ [s.pc] ∧ t.sp = s.sp + 1#16 ∧ t.pc.toNat = nnn.toNat ∧
        t = { s with pc := t.pc, stack := t.stack } ∧ ∀ a : Nat, t.readByte a = s.readByte a) ∧
    (s.params.stackDepth ≤ s.stack.length → exec (.call nnn) s = .next s)

/-- R80, R81 (the wrap of pc is decision D4, log entry 10): the skips on an immediate. -/
def Obligations.SkipsOnAnImmediate : Prop :=
  ∀ (x : Reg) (kk : Byte) (s : State),
    decodeWord (wordI 0x3#4 x kk) = .ok (.seVxKK x kk) ∧ decodeWord (wordI 0x4#4 x kk) = .ok (.sneVxKK x kk) ∧
    (∃ t, exec (.seVxKK x kk) s = .next t ∧ OnlyPc s t ∧ (s.reg x = kk → t.pc.toNat = (s.pc.toNat + 2) % 65536) ∧
      (s.reg x ≠ kk → t.pc = s.pc)) ∧
    ∃ t, exec (.sneVxKK x kk) s = .next t ∧ OnlyPc s t ∧ (s.reg x ≠ kk → t.pc.toNat = (s.pc.toNat + 2) % 65536) ∧
      (s.reg x = kk → t.pc = s.pc)

/-- R82, R83 (the low nibble is decision D10 and the wrap D4, log entry 10): the skips on two registers. -/
def Obligations.SkipsOnTwoRegisters : Prop :=
  ∀ (x y : Reg) (s : State),
    decodeWord (wordR 0x5#4 x y 0#4) = .ok (.seVxVy x y) ∧ decodeWord (wordR 0x9#4 x y 0#4) = .ok (.sneVxVy x y) ∧
    (∃ t, exec (.seVxVy x y) s = .next t ∧ OnlyPc s t ∧
      (s.reg x = s.reg y → t.pc.toNat = (s.pc.toNat + 2) % 65536) ∧ (s.reg x ≠ s.reg y → t.pc = s.pc)) ∧
    ∃ t, exec (.sneVxVy x y) s = .next t ∧ OnlyPc s t ∧
      (s.reg x ≠ s.reg y → t.pc.toNat = (s.pc.toNat + 2) % 65536) ∧ (s.reg x = s.reg y → t.pc = s.pc)

/-- R102 (no reduction: decision D4, log entry 10): BNNN loads pc with the exact sum of NNN and V[0]. -/
def Obligations.JpV0AddsV0 : Prop :=
  ∀ (nnn : Addr12) (s : State), decodeWord (wordA 0xB#4 nnn) = .ok (.jpV0NNN nnn) ∧
    ∃ t, exec (.jpV0NNN nnn) s = .next t ∧ t.pc.toNat = nnn.toNat + (s.reg 0#4).toNat ∧ OnlyPc s t

/-- R110 to R112 (the index modulo 16 is decision D11 and pressed = nonzero D12, log entry 12; the wrap D4): the skips on a
key. -/
def Obligations.SkipsOnAKey : Prop :=
  ∀ (x : Reg) (s : State) (k : BitVec 4), k.toNat = (s.reg x).toNat % 16 →
    decodeWord (wordI 0xE#4 x 0x9E#8) = .ok (.skpVx x) ∧ decodeWord (wordI 0xE#4 x 0xA1#8) = .ok (.sknpVx x) ∧
    (∃ t, exec (.skpVx x) s = .next t ∧ OnlyPc s t ∧ (s.key k ≠ 0#8 → t.pc.toNat = (s.pc.toNat + 2) % 65536) ∧
      (s.key k = 0#8 → t.pc = s.pc)) ∧
    ∃ t, exec (.sknpVx x) s = .next t ∧ OnlyPc s t ∧ (s.key k = 0#8 → t.pc.toNat = (s.pc.toNat + 2) % 65536) ∧
      (s.key k ≠ 0#8 → t.pc = s.pc)

/-! ### Registers and arithmetic -/

/-- R84: 6XKK loads V[X] with KK. -/
def Obligations.LdLoadsTheImmediate : Prop :=
  ∀ (x : Reg) (kk : Byte) (s : State), decodeWord (wordI 0x6#4 x kk) = .ok (.ldVxKK x kk) ∧
    ∃ t, exec (.ldVxKK x kk) s = .next t ∧ t.reg x = kk ∧ OnlyRegs [x] s t

/-- R85: 7XKK adds KK to V[X] modulo 256 and touches no flag. -/
def Obligations.AddAddsTheImmediate : Prop :=
  ∀ (x : Reg) (kk : Byte) (s : State), decodeWord (wordI 0x7#4 x kk) = .ok (.addVxKK x kk) ∧
    ∃ t, exec (.addVxKK x kk) s = .next t ∧ (t.reg x).toNat = ((s.reg x).toNat + kk.toNat) % 256 ∧ OnlyRegs [x] s t

/-- R91 to R94 (the codes are decision D30, VF untouched is D8, log entries 10 and 12): copy, OR, AND, XOR. -/
def Obligations.CopyAndLogicLeaveVfAlone : Prop :=
  ∀ (x y : Reg) (s : State),
    (decodeWord (wordR 0x8#4 x y 0#4) = .ok (.ldVxVy x y) ∧
      ∃ t, exec (.ldVxVy x y) s = .next t ∧ t.reg x = s.reg y ∧ OnlyRegs [x] s t) ∧
    (decodeWord (wordR 0x8#4 x y 1#4) = .ok (.orVxVy x y) ∧
      ∃ t, exec (.orVxVy x y) s = .next t ∧ t.reg x = s.reg x ||| s.reg y ∧ OnlyRegs [x] s t) ∧
    (decodeWord (wordR 0x8#4 x y 2#4) = .ok (.andVxVy x y) ∧
      ∃ t, exec (.andVxVy x y) s = .next t ∧ t.reg x = s.reg x &&& s.reg y ∧ OnlyRegs [x] s t) ∧
    (decodeWord (wordR 0x8#4 x y 3#4) = .ok (.xorVxVy x y) ∧
      ∃ t, exec (.xorVxVy x y) s = .next t ∧ t.reg x = s.reg x ^^^ s.reg y ∧ OnlyRegs [x] s t)

/-- R95, with R63 and R64 (old operands: decision D6; the result survives in VF when X = 0xF: D7, log entry 11): 8XY4. -/
def Obligations.AddRecordsTheCarry : Prop :=
  ∀ (x y : Reg) (s : State), decodeWord (wordR 0x8#4 x y 4#4) = .ok (.addVxVy x y) ∧
    ∃ t, exec (.addVxVy x y) s = .next t ∧
      (t.reg x).toNat = ((s.reg x).toNat + (s.reg y).toNat) % 256 ∧
      (x ≠ regF → t.reg regF = if 255 < (s.reg x).toNat + (s.reg y).toNat then 1#8 else 0#8) ∧
      OnlyRegs [x, regF] s t

/-- R96, R98, with R63 and R64 (decisions D6, D7, log entry 11): 8XY5 and 8XY7 write the difference only when it is strictly
positive; otherwise the destination is unchanged. VF is 1 or 0 accordingly, but holds the difference when X = 0xF and one is
written. -/
def Obligations.SubtractionNeverWraps : Prop :=
  ∀ (x y : Reg) (s : State),
    decodeWord (wordR 0x8#4 x y 5#4) = .ok (.subVxVy x y) ∧ decodeWord (wordR 0x8#4 x y 7#4) = .ok (.subnVxVy x y) ∧
    (∃ t, exec (.subVxVy x y) s = .next t ∧ OnlyRegs [x, regF] s t ∧
      ((s.reg y).toNat < (s.reg x).toNat →
        (t.reg x).toNat = (s.reg x).toNat - (s.reg y).toNat ∧ (x ≠ regF → t.reg regF = 1#8)) ∧
      ((s.reg x).toNat ≤ (s.reg y).toNat → (x ≠ regF → t.reg x = s.reg x) ∧ t.reg regF = 0#8)) ∧
    ∃ t, exec (.subnVxVy x y) s = .next t ∧ OnlyRegs [x, regF] s t ∧
      ((s.reg x).toNat < (s.reg y).toNat →
        (t.reg x).toNat = (s.reg y).toNat - (s.reg x).toNat ∧ (x ≠ regF → t.reg regF = 1#8)) ∧
      ((s.reg y).toNat ≤ (s.reg x).toNat → (x ≠ regF → t.reg x = s.reg x) ∧ t.reg regF = 0#8)

/-- R97, R99, with R62 and R64 (V[X] is shifted and Y ignored: decision D9; X = 0xF: D7, log entries 11 and 12): 8XY6 and 8XYE
shift by one and both report bit 0. -/
def Obligations.ShiftsReportBitZero : Prop :=
  ∀ (x y : Reg) (s : State),
    decodeWord (wordR 0x8#4 x y 6#4) = .ok (.shrVx x y) ∧ decodeWord (wordR 0x8#4 x y 0xE#4) = .ok (.shlVx x y) ∧
    (∃ t, exec (.shrVx x y) s = .next t ∧ OnlyRegs [x, regF] s t ∧ (t.reg x).toNat = (s.reg x).toNat / 2 ∧
      (x ≠ regF → (t.reg regF).toNat = (s.reg x).toNat % 2)) ∧
    ∃ t, exec (.shlVx x y) s = .next t ∧ OnlyRegs [x, regF] s t ∧ (t.reg x).toNat = 2 * (s.reg x).toNat % 256 ∧
      (x ≠ regF → (t.reg regF).toNat = (s.reg x).toNat % 2)

/-- R101: ANNN loads I with NNN. -/
def Obligations.LdLoadsTheIndex : Prop :=
  ∀ (nnn : Addr12) (s : State), decodeWord (wordA 0xA#4 nnn) = .ok (.ldINNN nnn) ∧
    ∃ t, exec (.ldINNN nnn) s = .next t ∧ t.i.toNat = nnn.toNat ∧ t = { s with i := t.i } ∧
      ∀ a : Nat, t.readByte a = s.readByte a

/-- R120 (the wrap at 65536 is decision D5, log entry 10): FX1E adds V[X] to I and touches no flag. -/
def Obligations.AddAddsToTheIndex : Prop :=
  ∀ (x : Reg) (s : State), decodeWord (wordI 0xF#4 x 0x1E#8) = .ok (.addIVx x) ∧
    ∃ t, exec (.addIVx x) s = .next t ∧ t.i.toNat = (s.i.toNat + (s.reg x).toNat) % 65536 ∧ t = { s with i := t.i } ∧
      ∀ a : Nat, t.readByte a = s.readByte a

/-- R103 (D20, log entry 5): CXKK writes the drawn byte masked by KK; the byte is the one the host drives, if it drives one,
and a free one otherwise. The host's port for it is `driveRnd`. -/
def Obligations.RndMasksTheDrawnByte : Prop :=
  ∀ (x : Reg) (kk : Byte) (s : State), decodeWord (wordI 0xC#4 x kk) = .ok (.rndVxKK x kk) ∧
    (∀ (b : Byte) (later : List Byte), s.rndIn = b :: later →
      ∃ t, exec (.rndVxKK x kk) s = .next t ∧ t.reg x = b &&& kk ∧ (∀ r, r ≠ x → t.reg r = s.reg r) ∧
        t = { s with v := t.v, rndIn := later } ∧ ∀ a : Nat, t.readByte a = s.readByte a) ∧
    (s.rndIn = [] →
      ∃ t, exec (.rndVxKK x kk) s = .next t ∧ t.reg x = Config.freeRnd s.draws &&& kk ∧
        (∀ r, r ≠ x → t.reg r = s.reg r) ∧ t = { s with v := t.v, draws := s.draws + 1 } ∧
        ∀ a : Nat, t.readByte a = s.readByte a) ∧
    ∀ b : Byte, s.rndIn = [] → (s.driveRnd b).rndIn = [b]

/-! ### The draw -/

/-- R105 (row-major order is decision D14, log entry 13): the framebuffer address of two bytes is the 11-bit concatenation of
bits 4 to 0 of y and bits 5 to 0 of x. -/
def Obligations.FramebufferAddressIsAConcatenation : Prop :=
  ∀ x y : Byte, fbIndex x.toNat y.toNat = (y.extractLsb' 0 5 ++ x.extractLsb' 0 6).toNat

/-- R106 with R105 and R107 (D13 to D15, log entry 13), cell by cell and not loop by loop: DXYN XORs PIXEL_ON into exactly the
cells its sprite bits of 1 fall on, and VF says whether one of them was lit before. -/
def Obligations.DrawTogglesExactlyTheCoveredCells : Prop :=
  ∀ (x y : Reg) (n : Nibble) (s : State), decodeWord (wordR 0xD#4 x y n) = .ok (.drwVxVyN x y n) ∧
    ∃ t, exec (.drwVxVyN x y n) s = .next t ∧
      (∀ k : Nat, s.covered x y n k → t.pixel k = s.pixel k ^^^ s.params.pixelOn) ∧
      (∀ k : Nat, ¬ s.covered x y n k → t.pixel k = s.pixel k) ∧
      ((∃ k, s.covered x y n k ∧ s.pixel k ≠ 0#32) → t.reg regF = 1#8) ∧
      ((∀ k, s.covered x y n k → s.pixel k = 0#32) → t.reg regF = 0#8) ∧
      (∀ r, r ≠ regF → t.reg r = s.reg r) ∧ t = { s with v := t.v, fb := t.fb } ∧
      ∀ a : Nat, t.readByte a = s.readByte a

/-- R108: a draw repeated with the same coordinates, I and sprite bytes restores the framebuffer, and its flag is 1 exactly
when a sprite bit of 1 fell on a cell that was dark before the first draw. In between, any other element may have changed.
Which cell a sprite bit falls on is decisions D14 and D15 (log entry 13). -/
def Obligations.DrawingTwiceRestoresTheScreen : Prop :=
  ∀ (x y : Reg) (n : Nibble) (s t u w : State), s.inv = true →
    exec (.drwVxVyN x y n) s = .next t →
    u.fb = t.fb → u.params = s.params → u.i = s.i → u.reg x = s.reg x → u.reg y = s.reg y →
    (∀ r : Nat, r < n.toNat → u.readByte (s.i.toNat + r) = s.readByte (s.i.toNat + r)) →
    exec (.drwVxVyN x y n) u = .next w →
    (∀ k : Nat, w.pixel k = s.pixel k) ∧ (w.reg regF = 1#8 ↔ ∃ k, s.covered x y n k ∧ s.pixel k = 0#32) ∧
      (w.reg regF = 0#8 ∨ w.reg regF = 1#8)

/-- 00_scope.md R4 and D13: which cells are lit, and everything else a step does, does not depend on the word PIXEL_ON. -/
def Obligations.PixelWordDoesNotMatter : Prop :=
  ∀ s t s' : State, s.inv = true → t.inv = true → SameButPixelWord s t → step s = .next s' →
    ∃ t', step t = .next t' ∧ SameButPixelWord s' t'

/-! ### Timer and key wait -/

/-- R115: FX07 copies the timer. -/
def Obligations.LdReadsTheTimer : Prop :=
  ∀ (x : Reg) (s : State), decodeWord (wordI 0xF#4 x 0x07#8) = .ok (.ldVxDT x) ∧
    (∃ t, exec (.ldVxDT x) s = .next t ∧ t.reg x = s.dt ∧ OnlyRegs [x] s t) ∧
    ∀ t, s.current = some (.ldVxDT x) → step s = .next t → t.reg x = s.dt ∧ t.dt.toNat = s.dt.toNat - 1

/-- R116: FX15 writes the timer, and the tick of the same step follows. -/
def Obligations.LdWritesTheTimer : Prop :=
  ∀ (x : Reg) (s : State), decodeWord (wordI 0xF#4 x 0x15#8) = .ok (.ldDTVx x) ∧
    (∃ t, exec (.ldDTVx x) s = .next t ∧ t.dt = s.reg x ∧ t = { s with dt := t.dt } ∧
      ∀ a : Nat, t.readByte a = s.readByte a) ∧
    ∀ t, s.current = some (.ldDTVx x) → step s = .next t → t.dt.toNat = (s.reg x).toNat - 1

/-- R140: after a step that writes n to the timer, the j-th step after it (j of 1 or more, no other write of the timer in
between) finds max(n - j, 0) in it, and an FX07 executed in that step reads it. The host may write keys and drive random bytes
between the steps. -/
def Obligations.TimerCountsStepsSinceTheWrite : Prop :=
  ∀ (s t u : State) (x : Reg) (j : Nat), s.current = some (.ldDTVx x) → step s = .next t → 1 ≤ j →
    HostedRun State.leavesTimer (j - 1) t u →
    u.dt.toNat = (s.reg x).toNat - j ∧
    ∀ (y : Reg) (v : State), u.current = some (.ldVxDT y) → step u = .next v → (v.reg y).toNat = (s.reg x).toNat - j

/-- R117 (pressed = nonzero is decision D12 and the rewind's frame D33, log entry 12): FX0A takes the least pressed key, or
puts pc back. -/
def Obligations.KeyWaitTakesTheLeastPressedKey : Prop :=
  ∀ (x : Reg) (s : State), decodeWord (wordI 0xF#4 x 0x0A#8) = .ok (.ldVxK x) ∧
    (∀ k : BitVec 4, s.key k ≠ 0#8 → (∀ j : BitVec 4, j.toNat < k.toNat → s.key j = 0#8) →
      ∃ t, exec (.ldVxK x) s = .next t ∧ (t.reg x).toNat = k.toNat ∧ OnlyRegs [x] s t) ∧
    ((∀ k : BitVec 4, s.key k = 0#8) → ∃ t, exec (.ldVxK x) s = .next t ∧ t.pc = s.pc - 2#16 ∧ OnlyPc s t)

/-- R117 corner case (d): while no key is pressed a waiting step changes nothing but the timer (and the output `unimpl`, which
every step drives). That nothing else changes is the spec's own choice, decision D33 (log entry 12). -/
def Obligations.WaitingStepChangesOnlyTheTimer : Prop :=
  ∀ (s : State) (x : Reg), s.current = some (.ldVxK x) → (∀ k : BitVec 4, s.key k = 0#8) →
    step s = .next { s with dt := if s.dt = 0#8 then 0#8 else s.dt - 1#8, unimpl := false }

/-- R154: a jump to its own address leaves everything unchanged but the timer (and the output `unimpl`); and that situation is
what the model's predicate `finished` (D28, log entry 17) says. -/
def Obligations.SelfLoopChangesOnlyTheTimer : Prop :=
  (∀ s : State, s.finished = true ↔ ∃ nnn : Addr12, s.current = some (.jp nnn) ∧ s.pc.toNat = nnn.toNat) ∧
  ∀ s : State, s.finished = true →
    step s = .next { s with dt := if s.dt = 0#8 then 0#8 else s.dt - 1#8, unimpl := false }

/-- R154 (the predicate is the model's, D28, log entry 17): a finished program stays finished whatever keys the host writes and
whatever random bytes it drives; only the timer runs, down to 0, and what the host itself changed differs. -/
def Obligations.FinishedProgramStaysFinished : Prop :=
  ∀ (s t : State) (n : Nat), s.finished = true → HostedRun (fun _ => True) n s t →
    t.finished = true ∧ t.dt.toNat = s.dt.toNat - n ∧
      t = { s with dt := t.dt, kp := t.kp, rndIn := t.rndIn, unimpl := t.unimpl }

/-! ### Memory transfers -/

/-- R121: FX33 stores the hundreds, tens and ones of V[X] at I, I + 1 and I + 2. -/
def Obligations.LdBStoresThreeDigits : Prop :=
  ∀ (x : Reg) (s : State), decodeWord (wordI 0xF#4 x 0x33#8) = .ok (.ldBVx x) ∧
    ∃ t, exec (.ldBVx x) s = .next t ∧ (t.readByte s.i.toNat).toNat = (s.reg x).toNat / 100 ∧
      (t.readByte (s.i.toNat + 1)).toNat = (s.reg x).toNat / 10 % 10 ∧
      (t.readByte (s.i.toNat + 2)).toNat = (s.reg x).toNat % 10 ∧ OnlyBytes s.i.toNat 3 s t

/-- R122 (I unchanged is decision D16, log entry 12): FX55 stores V[0] to V[X] at I to I + X. -/
def Obligations.BlockStoreWritesTheRegisters : Prop :=
  ∀ (x : Reg) (s : State), decodeWord (wordI 0xF#4 x 0x55#8) = .ok (.ldMemVx x) ∧
    ∃ t, exec (.ldMemVx x) s = .next t ∧
      (∀ k : Reg, k.toNat ≤ x.toNat → t.readByte (s.i.toNat + k.toNat) = s.reg k) ∧
      OnlyBytes s.i.toNat (x.toNat + 1) s t

/-- R123 (I unchanged is decision D16, log entry 12): FX65 loads V[0] to V[X] from I to I + X. -/
def Obligations.BlockLoadReadsTheRegisters : Prop :=
  ∀ (x : Reg) (s : State), decodeWord (wordI 0xF#4 x 0x65#8) = .ok (.ldVxMem x) ∧
    ∃ t, exec (.ldVxMem x) s = .next t ∧
      (∀ k : Reg, k.toNat ≤ x.toNat → t.reg k = s.readByte (s.i.toNat + k.toNat)) ∧
      (∀ k : Reg, x.toNat < k.toNat → t.reg k = s.reg k) ∧ t = { s with v := t.v } ∧
      ∀ a : Nat, t.readByte a = s.readByte a

/-! ### Invariants and whole runs -/

/-- R27: the invariant holds after reset, for every valid value of the parameters and for the defaults. -/
def Obligations.ResetMeetsTheInvariant : Prop :=
  (∀ p : Config.Params, p.valid = true → (State.resetWith p).inv = true) ∧ State.reset.inv = true

/-- R27: every step keeps the invariant, from every state that meets it: the stack within its depth, every cell 0 or
PIXEL_ON, framebuffer and memory in canonical form. -/
def Obligations.StepKeepsTheInvariant : Prop :=
  ∀ s t : State, s.inv = true → step s = .next t → t.inv = true

/-- R27: the invariant holds in every state that steps and permitted host actions (reset, load, keys, `rnd`) reach. -/
def Obligations.ReachableStatesMeetTheInvariant : Prop :=
  ∀ (f : Phase) (s : State), Reachable f s →
    s.inv = true ∧ s.sp.toNat ≤ s.params.stackDepth ∧ ∀ k : Nat, s.pixel k = 0#32 ∨ s.pixel k = s.params.pixelOn

/-- The subroutine round trip (source property S4 of 95_test_vectors.md, R71, R73): a taken CALL whose target is a RET comes
back to the instruction after the CALL with the stack as it was. -/
def Obligations.CallThenRetComesBack : Prop :=
  ∀ (s t u : State) (nnn : Addr12), s.current = some (.call nnn) → s.stack.length < s.params.stackDepth →
    step s = .next t → t.current = some .ret → step t = .next u →
    u.pc = s.pc + 2#16 ∧ u.stack = s.stack ∧ u.sp = s.sp ∧ ∀ r, u.reg r = s.reg r
end

