-- ==== Sys2Proof/Laws/Cells.lean ====
section
/-! SUPPORT. The laws of the lists of cells: a read after a write, and that every operation keeps the canonical form. -/

namespace Sys2Proof.Machine

variable {β : Type} (bg : Nat → β)

/-! ### Read after write, on every list -/

theorem cellRead_erase (m : List (Nat × β)) (a b : Nat) :
    cellRead bg (cellErase m a) b = if b = a then bg a else cellRead bg m b := by
  induction m with
  | nil => by_cases h : b = a <;> simp [cellErase, cellRead, h]
  | cons p m ih =>
    by_cases hp : p.1 = a
    · by_cases h : b = a
      · subst h; simpa [cellErase, hp] using ih
      · have : ¬ a = b := fun e => h e.symm
        simp [cellErase, cellRead, hp, ih, h, this]
    · by_cases h : b = a
      · subst h; simp [cellErase, cellRead, hp, ih]
      · simp [cellErase, cellRead, hp, ih, h]

/-- Inserting an index that has no entry. -/
theorem cellRead_insert (m : List (Nat × β)) (a b : Nat) (v : β) (h : ∀ p ∈ m, p.1 ≠ a) :
    cellRead bg (cellInsert m a v) b = if b = a then v else cellRead bg m b := by
  induction m with
  | nil =>
    by_cases hb : b = a
    · simp [cellInsert, cellRead, hb]
    · simp [cellInsert, cellRead, hb, Ne.symm hb]
  | cons p m ih =>
    have hp : p.1 ≠ a := h p (by simp)
    have ih := ih fun q hq => h q (by simp [hq])
    by_cases hlt : a < p.1
    · by_cases hb : b = a
      · simp [cellInsert, cellRead, hlt, hb]
      · have : ¬ a = b := fun e => hb e.symm
        simp [cellInsert, cellRead, hlt, hb, this]
    · by_cases hb : b = a
      · subst hb; simp [cellInsert, cellRead, hlt, hp, ih]
      · simp [cellInsert, cellRead, hlt, ih, hb]

theorem mem_of_mem_cellErase {m : List (Nat × β)} {a : Nat} {p : Nat × β} (h : p ∈ cellErase m a) :
    p ∈ m ∧ p.1 ≠ a := by
  induction m with
  | nil => simp [cellErase] at h
  | cons q m ih =>
    by_cases hq : q.1 = a
    · simp only [cellErase, hq, if_true] at h
      exact ⟨by simp [(ih h).1], (ih h).2⟩
    · simp only [cellErase, hq, if_false, List.mem_cons] at h
      rcases h with rfl | h
      · exact ⟨by simp, hq⟩
      · exact ⟨by simp [(ih h).1], (ih h).2⟩

/-- A read after a write: the value at the index written, the old value elsewhere. -/
theorem cellRead_write [DecidableEq β] (m : List (Nat × β)) (a b : Nat) (v : β) :
    cellRead bg (cellWrite bg m a v) b = if b = a then v else cellRead bg m b := by
  unfold cellWrite
  split
  · next h => rw [cellRead_erase, h]
  · rw [cellRead_insert bg _ _ _ _ fun p hp => (mem_of_mem_cellErase hp).2, cellRead_erase]
    split <;> rfl

/-! ### The canonical form -/

theorem cellsSorted_cons (p : Nat × β) (m : List (Nat × β)) :
    cellsSorted (p :: m) = true ↔ (∀ q ∈ m, p.1 < q.1) ∧ cellsSorted m = true := by
  simp [cellsSorted]

theorem cellsSorted_erase {m : List (Nat × β)} (a : Nat) (h : cellsSorted m = true) :
    cellsSorted (cellErase m a) = true := by
  induction m with
  | nil => rfl
  | cons p m ih =>
    rw [cellsSorted_cons] at h
    unfold cellErase
    split
    · exact ih h.2
    · exact (cellsSorted_cons _ _).2 ⟨fun q hq => h.1 q (mem_of_mem_cellErase hq).1, ih h.2⟩

theorem mem_of_mem_cellInsert {m : List (Nat × β)} {a : Nat} {v : β} {p : Nat × β}
    (h : p ∈ cellInsert m a v) : p = (a, v) ∨ p ∈ m := by
  induction m with
  | nil => simpa [cellInsert] using h
  | cons q m ih =>
    unfold cellInsert at h
    split at h
    · simpa using h
    · rcases List.mem_cons.1 h with rfl | h
      · simp
      · rcases ih h with rfl | h <;> simp [*]

theorem cellsSorted_insert {m : List (Nat × β)} {a : Nat} (v : β) (hm : ∀ p ∈ m, p.1 ≠ a)
    (h : cellsSorted m = true) : cellsSorted (cellInsert m a v) = true := by
  induction m with
  | nil => rfl
  | cons p m ih =>
    have hs := (cellsSorted_cons _ _).1 h
    unfold cellInsert
    split
    · next hlt =>
      refine (cellsSorted_cons _ _).2 ⟨fun q hq => ?_, h⟩
      rcases List.mem_cons.1 hq with rfl | hq
      · exact hlt
      · exact Nat.lt_trans hlt (hs.1 q hq)
    · next hlt =>
      refine (cellsSorted_cons _ _).2 ⟨fun q hq => ?_, ih (fun q hq => hm q (by simp [hq])) hs.2⟩
      rcases mem_of_mem_cellInsert hq with rfl | hq
      · have := hm p (by simp)
        simp only
        omega
      · exact hs.1 q hq

theorem cellsWf_iff [DecidableEq β] (size : Nat) (m : List (Nat × β)) :
    cellsWf size bg m = true ↔ cellsSorted m = true ∧ ∀ p ∈ m, p.1 < size ∧ p.2 ≠ bg p.1 := by
  simp [cellsWf]

/-- A write below the size keeps the canonical form. -/
theorem cellsWf_write [DecidableEq β] {size : Nat} {m : List (Nat × β)} {a : Nat} (v : β) (ha : a < size)
    (h : cellsWf size bg m = true) : cellsWf size bg (cellWrite bg m a v) = true := by
  rw [cellsWf_iff] at h ⊢
  have he : ∀ p ∈ cellErase m a, p.1 < size ∧ p.2 ≠ bg p.1 := fun p hp => h.2 p (mem_of_mem_cellErase hp).1
  unfold cellWrite
  split
  · exact ⟨cellsSorted_erase a h.1, he⟩
  · next hv =>
    refine ⟨cellsSorted_insert v (fun p hp => (mem_of_mem_cellErase hp).2) (cellsSorted_erase a h.1), fun p hp => ?_⟩
    rcases mem_of_mem_cellInsert hp with rfl | hp
    · exact ⟨ha, hv⟩
    · exact he p hp

/-- Every value a write leaves in the list was there before or is the value written. -/
theorem mem_cellWrite [DecidableEq β] {m : List (Nat × β)} {a : Nat} {v : β} {p : Nat × β}
    (h : p ∈ cellWrite bg m a v) : (p = (a, v) ∧ v ≠ bg a) ∨ p ∈ m := by
  unfold cellWrite at h
  split at h
  · exact .inr (mem_of_mem_cellErase h).1
  · next hv =>
    rcases mem_of_mem_cellInsert h with rfl | h
    · exact .inl ⟨rfl, hv⟩
    · exact .inr (mem_of_mem_cellErase h).1

/-- In a list in canonical form the value read at an index says whether the list has an entry for it. -/
theorem cellRead_eq_of_mem {m : List (Nat × β)} (h : cellsSorted m = true) {p : Nat × β} (hp : p ∈ m) :
    cellRead bg m p.1 = p.2 := by
  induction m with
  | nil => simp at hp
  | cons q m ih =>
    rw [cellsSorted_cons] at h
    rcases List.mem_cons.1 hp with rfl | hp
    · simp [cellRead]
    · have : q.1 ≠ p.1 := Nat.ne_of_lt (h.1 p hp)
      simp [cellRead, this, ih h.2 hp]

theorem cellRead_of_not_mem {m : List (Nat × β)} {a : Nat} (h : ∀ p ∈ m, p.1 ≠ a) : cellRead bg m a = bg a := by
  induction m with
  | nil => rfl
  | cons q m ih => simp [cellRead, h q (by simp), ih fun p hp => h p (by simp [hp])]

/-- What is read is an entry's value or the background's. -/
theorem cellRead_cases (m : List (Nat × β)) (a : Nat) : (a, cellRead bg m a) ∈ m ∨ cellRead bg m a = bg a := by
  induction m with
  | nil => exact .inr rfl
  | cons q m ih =>
    by_cases hq : q.1 = a
    · subst hq; simp [cellRead]
    · rcases ih with h | h
      · exact .inl (by simp [cellRead, hq, h])
      · exact .inr (by simp [cellRead, hq, h])

end Sys2Proof.Machine
end

