-- ==== Sys2Proof/Laws/State.lean ====
section
/-! SUPPORT. One lemma per field per update of the state, so that no proof unfolds a record update. -/

namespace Sys2Proof.Machine

variable (s : State)

/-! ### setReg -/

@[simp] theorem State.setReg_v (x : Reg) (b : Byte) : (s.setReg x b).v = s.v.set x.toNat b := rfl
@[simp] theorem State.setReg_i (x : Reg) (b : Byte) : (s.setReg x b).i = s.i := rfl
@[simp] theorem State.setReg_pc (x : Reg) (b : Byte) : (s.setReg x b).pc = s.pc := rfl
@[simp] theorem State.setReg_stack (x : Reg) (b : Byte) : (s.setReg x b).stack = s.stack := rfl
@[simp] theorem State.setReg_dt (x : Reg) (b : Byte) : (s.setReg x b).dt = s.dt := rfl
@[simp] theorem State.setReg_fb (x : Reg) (b : Byte) : (s.setReg x b).fb = s.fb := rfl
@[simp] theorem State.setReg_kp (x : Reg) (b : Byte) : (s.setReg x b).kp = s.kp := rfl
@[simp] theorem State.setReg_mem (x : Reg) (b : Byte) : (s.setReg x b).mem = s.mem := rfl
@[simp] theorem State.setReg_unimpl (x : Reg) (b : Byte) : (s.setReg x b).unimpl = s.unimpl := rfl
@[simp] theorem State.setReg_rndIn (x : Reg) (b : Byte) : (s.setReg x b).rndIn = s.rndIn := rfl
@[simp] theorem State.setReg_draws (x : Reg) (b : Byte) : (s.setReg x b).draws = s.draws := rfl
@[simp] theorem State.setReg_params (x : Reg) (b : Byte) : (s.setReg x b).params = s.params := rfl

/-! ### writeByte -/

@[simp] theorem State.writeByte_v (a : Nat) (b : Byte) : (s.writeByte a b).v = s.v := rfl
@[simp] theorem State.writeByte_i (a : Nat) (b : Byte) : (s.writeByte a b).i = s.i := rfl
@[simp] theorem State.writeByte_pc (a : Nat) (b : Byte) : (s.writeByte a b).pc = s.pc := rfl
@[simp] theorem State.writeByte_stack (a : Nat) (b : Byte) : (s.writeByte a b).stack = s.stack := rfl
@[simp] theorem State.writeByte_dt (a : Nat) (b : Byte) : (s.writeByte a b).dt = s.dt := rfl
@[simp] theorem State.writeByte_fb (a : Nat) (b : Byte) : (s.writeByte a b).fb = s.fb := rfl
@[simp] theorem State.writeByte_kp (a : Nat) (b : Byte) : (s.writeByte a b).kp = s.kp := rfl
@[simp] theorem State.writeByte_mem (a : Nat) (b : Byte) : (s.writeByte a b).mem = memWrite s.params s.mem a b := rfl
@[simp] theorem State.writeByte_unimpl (a : Nat) (b : Byte) : (s.writeByte a b).unimpl = s.unimpl := rfl
@[simp] theorem State.writeByte_rndIn (a : Nat) (b : Byte) : (s.writeByte a b).rndIn = s.rndIn := rfl
@[simp] theorem State.writeByte_draws (a : Nat) (b : Byte) : (s.writeByte a b).draws = s.draws := rfl
@[simp] theorem State.writeByte_params (a : Nat) (b : Byte) : (s.writeByte a b).params = s.params := rfl

/-! ### loadRegs -/

@[simp] theorem State.loadRegs_i (a : Nat) (x : Reg) : (s.loadRegs a x).i = s.i := rfl
@[simp] theorem State.loadRegs_pc (a : Nat) (x : Reg) : (s.loadRegs a x).pc = s.pc := rfl
@[simp] theorem State.loadRegs_stack (a : Nat) (x : Reg) : (s.loadRegs a x).stack = s.stack := rfl
@[simp] theorem State.loadRegs_dt (a : Nat) (x : Reg) : (s.loadRegs a x).dt = s.dt := rfl
@[simp] theorem State.loadRegs_fb (a : Nat) (x : Reg) : (s.loadRegs a x).fb = s.fb := rfl
@[simp] theorem State.loadRegs_kp (a : Nat) (x : Reg) : (s.loadRegs a x).kp = s.kp := rfl
@[simp] theorem State.loadRegs_mem (a : Nat) (x : Reg) : (s.loadRegs a x).mem = s.mem := rfl
@[simp] theorem State.loadRegs_unimpl (a : Nat) (x : Reg) : (s.loadRegs a x).unimpl = s.unimpl := rfl
@[simp] theorem State.loadRegs_rndIn (a : Nat) (x : Reg) : (s.loadRegs a x).rndIn = s.rndIn := rfl
@[simp] theorem State.loadRegs_draws (a : Nat) (x : Reg) : (s.loadRegs a x).draws = s.draws := rfl
@[simp] theorem State.loadRegs_params (a : Nat) (x : Reg) : (s.loadRegs a x).params = s.params := rfl

/-! ### advance -/

@[simp] theorem State.advance_v : s.advance.v = s.v := rfl
@[simp] theorem State.advance_i : s.advance.i = s.i := rfl
@[simp] theorem State.advance_pc : s.advance.pc = s.pc + 2#16 := rfl
@[simp] theorem State.advance_stack : s.advance.stack = s.stack := rfl
@[simp] theorem State.advance_dt : s.advance.dt = s.dt := rfl
@[simp] theorem State.advance_fb : s.advance.fb = s.fb := rfl
@[simp] theorem State.advance_kp : s.advance.kp = s.kp := rfl
@[simp] theorem State.advance_mem : s.advance.mem = s.mem := rfl
@[simp] theorem State.advance_unimpl : s.advance.unimpl = s.unimpl := rfl
@[simp] theorem State.advance_rndIn : s.advance.rndIn = s.rndIn := rfl
@[simp] theorem State.advance_draws : s.advance.draws = s.draws := rfl
@[simp] theorem State.advance_params : s.advance.params = s.params := rfl

/-! ### rewind -/

@[simp] theorem State.rewind_v : s.rewind.v = s.v := rfl
@[simp] theorem State.rewind_i : s.rewind.i = s.i := rfl
@[simp] theorem State.rewind_pc : s.rewind.pc = s.pc - 2#16 := rfl
@[simp] theorem State.rewind_stack : s.rewind.stack = s.stack := rfl
@[simp] theorem State.rewind_dt : s.rewind.dt = s.dt := rfl
@[simp] theorem State.rewind_fb : s.rewind.fb = s.fb := rfl
@[simp] theorem State.rewind_kp : s.rewind.kp = s.kp := rfl
@[simp] theorem State.rewind_mem : s.rewind.mem = s.mem := rfl
@[simp] theorem State.rewind_unimpl : s.rewind.unimpl = s.unimpl := rfl
@[simp] theorem State.rewind_rndIn : s.rewind.rndIn = s.rndIn := rfl
@[simp] theorem State.rewind_draws : s.rewind.draws = s.draws := rfl
@[simp] theorem State.rewind_params : s.rewind.params = s.params := rfl

/-! ### jump -/

@[simp] theorem State.jump_v (w : Word) : (s.jump w).v = s.v := rfl
@[simp] theorem State.jump_i (w : Word) : (s.jump w).i = s.i := rfl
@[simp] theorem State.jump_pc (w : Word) : (s.jump w).pc = w := rfl
@[simp] theorem State.jump_stack (w : Word) : (s.jump w).stack = s.stack := rfl
@[simp] theorem State.jump_dt (w : Word) : (s.jump w).dt = s.dt := rfl
@[simp] theorem State.jump_fb (w : Word) : (s.jump w).fb = s.fb := rfl
@[simp] theorem State.jump_kp (w : Word) : (s.jump w).kp = s.kp := rfl
@[simp] theorem State.jump_mem (w : Word) : (s.jump w).mem = s.mem := rfl
@[simp] theorem State.jump_unimpl (w : Word) : (s.jump w).unimpl = s.unimpl := rfl
@[simp] theorem State.jump_rndIn (w : Word) : (s.jump w).rndIn = s.rndIn := rfl
@[simp] theorem State.jump_draws (w : Word) : (s.jump w).draws = s.draws := rfl
@[simp] theorem State.jump_params (w : Word) : (s.jump w).params = s.params := rfl

/-! ### tick -/

@[simp] theorem State.tick_v : s.tick.v = s.v := rfl
@[simp] theorem State.tick_i : s.tick.i = s.i := rfl
@[simp] theorem State.tick_pc : s.tick.pc = s.pc := rfl
@[simp] theorem State.tick_stack : s.tick.stack = s.stack := rfl
@[simp] theorem State.tick_dt : s.tick.dt = tickByte s.dt := rfl
@[simp] theorem State.tick_fb : s.tick.fb = s.fb := rfl
@[simp] theorem State.tick_kp : s.tick.kp = s.kp := rfl
@[simp] theorem State.tick_mem : s.tick.mem = s.mem := rfl
@[simp] theorem State.tick_unimpl : s.tick.unimpl = s.unimpl := rfl
@[simp] theorem State.tick_rndIn : s.tick.rndIn = s.rndIn := rfl
@[simp] theorem State.tick_draws : s.tick.draws = s.draws := rfl
@[simp] theorem State.tick_params : s.tick.params = s.params := rfl

/-! ### push -/

@[simp] theorem State.push_v (w : Word) : (s.push w).v = s.v := rfl
@[simp] theorem State.push_i (w : Word) : (s.push w).i = s.i := rfl
@[simp] theorem State.push_pc (w : Word) : (s.push w).pc = s.pc := rfl
@[simp] theorem State.push_stack (w : Word) : (s.push w).stack = s.stack ++ [w] := rfl
@[simp] theorem State.push_dt (w : Word) : (s.push w).dt = s.dt := rfl
@[simp] theorem State.push_fb (w : Word) : (s.push w).fb = s.fb := rfl
@[simp] theorem State.push_kp (w : Word) : (s.push w).kp = s.kp := rfl
@[simp] theorem State.push_mem (w : Word) : (s.push w).mem = s.mem := rfl
@[simp] theorem State.push_unimpl (w : Word) : (s.push w).unimpl = s.unimpl := rfl
@[simp] theorem State.push_rndIn (w : Word) : (s.push w).rndIn = s.rndIn := rfl
@[simp] theorem State.push_draws (w : Word) : (s.push w).draws = s.draws := rfl
@[simp] theorem State.push_params (w : Word) : (s.push w).params = s.params := rfl

/-! ### pop -/

@[simp] theorem State.pop_v : s.pop.v = s.v := rfl
@[simp] theorem State.pop_i : s.pop.i = s.i := rfl
@[simp] theorem State.pop_pc : s.pop.pc = s.pc := rfl
@[simp] theorem State.pop_stack : s.pop.stack = s.stack.dropLast := rfl
@[simp] theorem State.pop_dt : s.pop.dt = s.dt := rfl
@[simp] theorem State.pop_fb : s.pop.fb = s.fb := rfl
@[simp] theorem State.pop_kp : s.pop.kp = s.kp := rfl
@[simp] theorem State.pop_mem : s.pop.mem = s.mem := rfl
@[simp] theorem State.pop_unimpl : s.pop.unimpl = s.unimpl := rfl
@[simp] theorem State.pop_rndIn : s.pop.rndIn = s.rndIn := rfl
@[simp] theorem State.pop_draws : s.pop.draws = s.draws := rfl
@[simp] theorem State.pop_params : s.pop.params = s.params := rfl

/-! ### unmatched -/

@[simp] theorem State.unmatched_v : s.unmatched.v = s.v := rfl
@[simp] theorem State.unmatched_i : s.unmatched.i = s.i := rfl
@[simp] theorem State.unmatched_pc : s.unmatched.pc = s.pc := rfl
@[simp] theorem State.unmatched_stack : s.unmatched.stack = s.stack := rfl
@[simp] theorem State.unmatched_dt : s.unmatched.dt = s.dt := rfl
@[simp] theorem State.unmatched_fb : s.unmatched.fb = s.fb := rfl
@[simp] theorem State.unmatched_kp : s.unmatched.kp = s.kp := rfl
@[simp] theorem State.unmatched_mem : s.unmatched.mem = s.mem := rfl
@[simp] theorem State.unmatched_unimpl : s.unmatched.unimpl = true := rfl
@[simp] theorem State.unmatched_rndIn : s.unmatched.rndIn = s.rndIn := rfl
@[simp] theorem State.unmatched_draws : s.unmatched.draws = s.draws := rfl
@[simp] theorem State.unmatched_params : s.unmatched.params = s.params := rfl

/-! ### keyWrite -/

@[simp] theorem State.keyWrite_v (k : BitVec 4) (b : Byte) : (s.keyWrite k b).v = s.v := rfl
@[simp] theorem State.keyWrite_i (k : BitVec 4) (b : Byte) : (s.keyWrite k b).i = s.i := rfl
@[simp] theorem State.keyWrite_pc (k : BitVec 4) (b : Byte) : (s.keyWrite k b).pc = s.pc := rfl
@[simp] theorem State.keyWrite_stack (k : BitVec 4) (b : Byte) : (s.keyWrite k b).stack = s.stack := rfl
@[simp] theorem State.keyWrite_dt (k : BitVec 4) (b : Byte) : (s.keyWrite k b).dt = s.dt := rfl
@[simp] theorem State.keyWrite_fb (k : BitVec 4) (b : Byte) : (s.keyWrite k b).fb = s.fb := rfl
@[simp] theorem State.keyWrite_kp (k : BitVec 4) (b : Byte) : (s.keyWrite k b).kp = s.kp.set k.toNat b := rfl
@[simp] theorem State.keyWrite_mem (k : BitVec 4) (b : Byte) : (s.keyWrite k b).mem = s.mem := rfl
@[simp] theorem State.keyWrite_unimpl (k : BitVec 4) (b : Byte) : (s.keyWrite k b).unimpl = s.unimpl := rfl
@[simp] theorem State.keyWrite_rndIn (k : BitVec 4) (b : Byte) : (s.keyWrite k b).rndIn = s.rndIn := rfl
@[simp] theorem State.keyWrite_draws (k : BitVec 4) (b : Byte) : (s.keyWrite k b).draws = s.draws := rfl
@[simp] theorem State.keyWrite_params (k : BitVec 4) (b : Byte) : (s.keyWrite k b).params = s.params := rfl

/-! ### setKeys -/

@[simp] theorem State.setKeys_v (keys : Vector Byte 16) : (s.setKeys keys).v = s.v := rfl
@[simp] theorem State.setKeys_i (keys : Vector Byte 16) : (s.setKeys keys).i = s.i := rfl
@[simp] theorem State.setKeys_pc (keys : Vector Byte 16) : (s.setKeys keys).pc = s.pc := rfl
@[simp] theorem State.setKeys_stack (keys : Vector Byte 16) : (s.setKeys keys).stack = s.stack := rfl
@[simp] theorem State.setKeys_dt (keys : Vector Byte 16) : (s.setKeys keys).dt = s.dt := rfl
@[simp] theorem State.setKeys_fb (keys : Vector Byte 16) : (s.setKeys keys).fb = s.fb := rfl
@[simp] theorem State.setKeys_kp (keys : Vector Byte 16) : (s.setKeys keys).kp = keys := rfl
@[simp] theorem State.setKeys_mem (keys : Vector Byte 16) : (s.setKeys keys).mem = s.mem := rfl
@[simp] theorem State.setKeys_unimpl (keys : Vector Byte 16) : (s.setKeys keys).unimpl = s.unimpl := rfl
@[simp] theorem State.setKeys_rndIn (keys : Vector Byte 16) : (s.setKeys keys).rndIn = s.rndIn := rfl
@[simp] theorem State.setKeys_draws (keys : Vector Byte 16) : (s.setKeys keys).draws = s.draws := rfl
@[simp] theorem State.setKeys_params (keys : Vector Byte 16) : (s.setKeys keys).params = s.params := rfl

/-! ### driveRnd -/

@[simp] theorem State.driveRnd_v (b : Byte) : (s.driveRnd b).v = s.v := rfl
@[simp] theorem State.driveRnd_i (b : Byte) : (s.driveRnd b).i = s.i := rfl
@[simp] theorem State.driveRnd_pc (b : Byte) : (s.driveRnd b).pc = s.pc := rfl
@[simp] theorem State.driveRnd_stack (b : Byte) : (s.driveRnd b).stack = s.stack := rfl
@[simp] theorem State.driveRnd_dt (b : Byte) : (s.driveRnd b).dt = s.dt := rfl
@[simp] theorem State.driveRnd_fb (b : Byte) : (s.driveRnd b).fb = s.fb := rfl
@[simp] theorem State.driveRnd_kp (b : Byte) : (s.driveRnd b).kp = s.kp := rfl
@[simp] theorem State.driveRnd_mem (b : Byte) : (s.driveRnd b).mem = s.mem := rfl
@[simp] theorem State.driveRnd_unimpl (b : Byte) : (s.driveRnd b).unimpl = s.unimpl := rfl
@[simp] theorem State.driveRnd_rndIn (b : Byte) : (s.driveRnd b).rndIn = s.rndIn ++ [b] := rfl
@[simp] theorem State.driveRnd_draws (b : Byte) : (s.driveRnd b).draws = s.draws := rfl
@[simp] theorem State.driveRnd_params (b : Byte) : (s.driveRnd b).params = s.params := rfl

/-! ### begin -/

@[simp] theorem State.begin_v : s.begin.v = s.v := rfl
@[simp] theorem State.begin_i : s.begin.i = s.i := rfl
@[simp] theorem State.begin_pc : s.begin.pc = s.pc + 2#16 := rfl
@[simp] theorem State.begin_stack : s.begin.stack = s.stack := rfl
@[simp] theorem State.begin_dt : s.begin.dt = s.dt := rfl
@[simp] theorem State.begin_fb : s.begin.fb = s.fb := rfl
@[simp] theorem State.begin_kp : s.begin.kp = s.kp := rfl
@[simp] theorem State.begin_mem : s.begin.mem = s.mem := rfl
@[simp] theorem State.begin_unimpl : s.begin.unimpl = false := rfl
@[simp] theorem State.begin_rndIn : s.begin.rndIn = s.rndIn := rfl
@[simp] theorem State.begin_draws : s.begin.draws = s.draws := rfl
@[simp] theorem State.begin_params : s.begin.params = s.params := rfl

/-! ### resetWith -/

@[simp] theorem State.resetWith_v (p : Config.Params) : (State.resetWith p).v = Vector.replicate 16 0#8 := rfl
@[simp] theorem State.resetWith_i (p : Config.Params) : (State.resetWith p).i = 0#16 := rfl
@[simp] theorem State.resetWith_pc (p : Config.Params) : (State.resetWith p).pc = 0x200#16 := rfl
@[simp] theorem State.resetWith_stack (p : Config.Params) : (State.resetWith p).stack = [] := rfl
@[simp] theorem State.resetWith_dt (p : Config.Params) : (State.resetWith p).dt = 0#8 := rfl
@[simp] theorem State.resetWith_fb (p : Config.Params) : (State.resetWith p).fb = [] := rfl
@[simp] theorem State.resetWith_kp (p : Config.Params) : (State.resetWith p).kp = Vector.replicate 16 0#8 := rfl
@[simp] theorem State.resetWith_mem (p : Config.Params) : (State.resetWith p).mem = [] := rfl
@[simp] theorem State.resetWith_unimpl (p : Config.Params) : (State.resetWith p).unimpl = false := rfl
@[simp] theorem State.resetWith_rndIn (p : Config.Params) : (State.resetWith p).rndIn = [] := rfl
@[simp] theorem State.resetWith_draws (p : Config.Params) : (State.resetWith p).draws = 0 := rfl
@[simp] theorem State.resetWith_params (p : Config.Params) : (State.resetWith p).params = p := rfl

/-! ### skipIf: nothing but pc -/

@[simp] theorem State.skipIf_v (c : Bool) : (s.skipIf c).v = s.v := by
  unfold State.skipIf; split <;> rfl
@[simp] theorem State.skipIf_i (c : Bool) : (s.skipIf c).i = s.i := by
  unfold State.skipIf; split <;> rfl
@[simp] theorem State.skipIf_pc (c : Bool) : (s.skipIf c).pc = if c then s.pc + 2#16 else s.pc := by
  unfold State.skipIf; split <;> rfl
@[simp] theorem State.skipIf_stack (c : Bool) : (s.skipIf c).stack = s.stack := by
  unfold State.skipIf; split <;> rfl
@[simp] theorem State.skipIf_dt (c : Bool) : (s.skipIf c).dt = s.dt := by
  unfold State.skipIf; split <;> rfl
@[simp] theorem State.skipIf_fb (c : Bool) : (s.skipIf c).fb = s.fb := by
  unfold State.skipIf; split <;> rfl
@[simp] theorem State.skipIf_kp (c : Bool) : (s.skipIf c).kp = s.kp := by
  unfold State.skipIf; split <;> rfl
@[simp] theorem State.skipIf_mem (c : Bool) : (s.skipIf c).mem = s.mem := by
  unfold State.skipIf; split <;> rfl
@[simp] theorem State.skipIf_unimpl (c : Bool) : (s.skipIf c).unimpl = s.unimpl := by
  unfold State.skipIf; split <;> rfl
@[simp] theorem State.skipIf_rndIn (c : Bool) : (s.skipIf c).rndIn = s.rndIn := by
  unfold State.skipIf; split <;> rfl
@[simp] theorem State.skipIf_draws (c : Bool) : (s.skipIf c).draws = s.draws := by
  unfold State.skipIf; split <;> rfl
@[simp] theorem State.skipIf_params (c : Bool) : (s.skipIf c).params = s.params := by
  unfold State.skipIf; split <;> rfl

/-! ### consumeRnd: nothing but the input -/

@[simp] theorem State.consumeRnd_v : s.consumeRnd.v = s.v := by
  unfold State.consumeRnd; split <;> rfl
@[simp] theorem State.consumeRnd_i : s.consumeRnd.i = s.i := by
  unfold State.consumeRnd; split <;> rfl
@[simp] theorem State.consumeRnd_pc : s.consumeRnd.pc = s.pc := by
  unfold State.consumeRnd; split <;> rfl
@[simp] theorem State.consumeRnd_stack : s.consumeRnd.stack = s.stack := by
  unfold State.consumeRnd; split <;> rfl
@[simp] theorem State.consumeRnd_dt : s.consumeRnd.dt = s.dt := by
  unfold State.consumeRnd; split <;> rfl
@[simp] theorem State.consumeRnd_fb : s.consumeRnd.fb = s.fb := by
  unfold State.consumeRnd; split <;> rfl
@[simp] theorem State.consumeRnd_kp : s.consumeRnd.kp = s.kp := by
  unfold State.consumeRnd; split <;> rfl
@[simp] theorem State.consumeRnd_mem : s.consumeRnd.mem = s.mem := by
  unfold State.consumeRnd; split <;> rfl
@[simp] theorem State.consumeRnd_unimpl : s.consumeRnd.unimpl = s.unimpl := by
  unfold State.consumeRnd; split <;> rfl
@[simp] theorem State.consumeRnd_rndIn : s.consumeRnd.rndIn = s.rndIn.tail := by
  unfold State.consumeRnd; split <;> simp [*]
@[simp] theorem State.consumeRnd_draws : s.consumeRnd.draws = if s.rndIn = [] then s.draws + 1 else s.draws := by
  unfold State.consumeRnd; split <;> simp [*]
@[simp] theorem State.consumeRnd_params : s.consumeRnd.params = s.params := by
  unfold State.consumeRnd; split <;> rfl

/-! ### storeBytes: nothing but memory -/

@[simp] theorem State.storeBytes_v (a : Nat) (bs : List Byte) : (s.storeBytes a bs).v = s.v := by
  induction bs generalizing s a with
  | nil => rfl
  | cons b bs ih => simp [State.storeBytes, ih]
@[simp] theorem State.storeBytes_i (a : Nat) (bs : List Byte) : (s.storeBytes a bs).i = s.i := by
  induction bs generalizing s a with
  | nil => rfl
  | cons b bs ih => simp [State.storeBytes, ih]
@[simp] theorem State.storeBytes_pc (a : Nat) (bs : List Byte) : (s.storeBytes a bs).pc = s.pc := by
  induction bs generalizing s a with
  | nil => rfl
  | cons b bs ih => simp [State.storeBytes, ih]
@[simp] theorem State.storeBytes_stack (a : Nat) (bs : List Byte) : (s.storeBytes a bs).stack = s.stack := by
  induction bs generalizing s a with
  | nil => rfl
  | cons b bs ih => simp [State.storeBytes, ih]
@[simp] theorem State.storeBytes_dt (a : Nat) (bs : List Byte) : (s.storeBytes a bs).dt = s.dt := by
  induction bs generalizing s a with
  | nil => rfl
  | cons b bs ih => simp [State.storeBytes, ih]
@[simp] theorem State.storeBytes_fb (a : Nat) (bs : List Byte) : (s.storeBytes a bs).fb = s.fb := by
  induction bs generalizing s a with
  | nil => rfl
  | cons b bs ih => simp [State.storeBytes, ih]
@[simp] theorem State.storeBytes_kp (a : Nat) (bs : List Byte) : (s.storeBytes a bs).kp = s.kp := by
  induction bs generalizing s a with
  | nil => rfl
  | cons b bs ih => simp [State.storeBytes, ih]
@[simp] theorem State.storeBytes_unimpl (a : Nat) (bs : List Byte) : (s.storeBytes a bs).unimpl = s.unimpl := by
  induction bs generalizing s a with
  | nil => rfl
  | cons b bs ih => simp [State.storeBytes, ih]
@[simp] theorem State.storeBytes_rndIn (a : Nat) (bs : List Byte) : (s.storeBytes a bs).rndIn = s.rndIn := by
  induction bs generalizing s a with
  | nil => rfl
  | cons b bs ih => simp [State.storeBytes, ih]
@[simp] theorem State.storeBytes_draws (a : Nat) (bs : List Byte) : (s.storeBytes a bs).draws = s.draws := by
  induction bs generalizing s a with
  | nil => rfl
  | cons b bs ih => simp [State.storeBytes, ih]
@[simp] theorem State.storeBytes_params (a : Nat) (bs : List Byte) : (s.storeBytes a bs).params = s.params := by
  induction bs generalizing s a with
  | nil => rfl
  | cons b bs ih => simp [State.storeBytes, ih]

/-! ### subtractInto and setFlagThenReg: nothing but registers -/

@[simp] theorem State.setFlagThenReg_i (x : Reg) (c : Bool) (b : Byte) : (s.setFlagThenReg x c b).i = s.i := rfl
@[simp] theorem State.subtractInto_i (x : Reg) (a b : Byte) : (s.subtractInto x a b).i = s.i := by
  unfold State.subtractInto; split <;> rfl
@[simp] theorem State.setFlagThenReg_pc (x : Reg) (c : Bool) (b : Byte) : (s.setFlagThenReg x c b).pc = s.pc := rfl
@[simp] theorem State.subtractInto_pc (x : Reg) (a b : Byte) : (s.subtractInto x a b).pc = s.pc := by
  unfold State.subtractInto; split <;> rfl
@[simp] theorem State.setFlagThenReg_stack (x : Reg) (c : Bool) (b : Byte) : (s.setFlagThenReg x c b).stack = s.stack := rfl
@[simp] theorem State.subtractInto_stack (x : Reg) (a b : Byte) : (s.subtractInto x a b).stack = s.stack := by
  unfold State.subtractInto; split <;> rfl
@[simp] theorem State.setFlagThenReg_dt (x : Reg) (c : Bool) (b : Byte) : (s.setFlagThenReg x c b).dt = s.dt := rfl
@[simp] theorem State.subtractInto_dt (x : Reg) (a b : Byte) : (s.subtractInto x a b).dt = s.dt := by
  unfold State.subtractInto; split <;> rfl
@[simp] theorem State.setFlagThenReg_fb (x : Reg) (c : Bool) (b : Byte) : (s.setFlagThenReg x c b).fb = s.fb := rfl
@[simp] theorem State.subtractInto_fb (x : Reg) (a b : Byte) : (s.subtractInto x a b).fb = s.fb := by
  unfold State.subtractInto; split <;> rfl
@[simp] theorem State.setFlagThenReg_kp (x : Reg) (c : Bool) (b : Byte) : (s.setFlagThenReg x c b).kp = s.kp := rfl
@[simp] theorem State.subtractInto_kp (x : Reg) (a b : Byte) : (s.subtractInto x a b).kp = s.kp := by
  unfold State.subtractInto; split <;> rfl
@[simp] theorem State.setFlagThenReg_mem (x : Reg) (c : Bool) (b : Byte) : (s.setFlagThenReg x c b).mem = s.mem := rfl
@[simp] theorem State.subtractInto_mem (x : Reg) (a b : Byte) : (s.subtractInto x a b).mem = s.mem := by
  unfold State.subtractInto; split <;> rfl
@[simp] theorem State.setFlagThenReg_unimpl (x : Reg) (c : Bool) (b : Byte) : (s.setFlagThenReg x c b).unimpl = s.unimpl := rfl
@[simp] theorem State.subtractInto_unimpl (x : Reg) (a b : Byte) : (s.subtractInto x a b).unimpl = s.unimpl := by
  unfold State.subtractInto; split <;> rfl
@[simp] theorem State.setFlagThenReg_rndIn (x : Reg) (c : Bool) (b : Byte) : (s.setFlagThenReg x c b).rndIn = s.rndIn := rfl
@[simp] theorem State.subtractInto_rndIn (x : Reg) (a b : Byte) : (s.subtractInto x a b).rndIn = s.rndIn := by
  unfold State.subtractInto; split <;> rfl
@[simp] theorem State.setFlagThenReg_draws (x : Reg) (c : Bool) (b : Byte) : (s.setFlagThenReg x c b).draws = s.draws := rfl
@[simp] theorem State.subtractInto_draws (x : Reg) (a b : Byte) : (s.subtractInto x a b).draws = s.draws := by
  unfold State.subtractInto; split <;> rfl
@[simp] theorem State.setFlagThenReg_params (x : Reg) (c : Bool) (b : Byte) : (s.setFlagThenReg x c b).params = s.params := rfl
@[simp] theorem State.subtractInto_params (x : Reg) (a b : Byte) : (s.subtractInto x a b).params = s.params := by
  unfold State.subtractInto; split <;> rfl

/-! ### drawCells: nothing but the framebuffer and VF -/

@[simp] theorem State.drawCells_i (cells : List Nat) : (s.drawCells cells).i = s.i := rfl
@[simp] theorem State.drawCells_pc (cells : List Nat) : (s.drawCells cells).pc = s.pc := rfl
@[simp] theorem State.drawCells_stack (cells : List Nat) : (s.drawCells cells).stack = s.stack := rfl
@[simp] theorem State.drawCells_dt (cells : List Nat) : (s.drawCells cells).dt = s.dt := rfl
@[simp] theorem State.drawCells_fb (cells : List Nat) :
    (s.drawCells cells).fb = (toggleCells s.params.pixelOn cells (s.fb, false)).1 := rfl
@[simp] theorem State.drawCells_kp (cells : List Nat) : (s.drawCells cells).kp = s.kp := rfl
@[simp] theorem State.drawCells_mem (cells : List Nat) : (s.drawCells cells).mem = s.mem := rfl
@[simp] theorem State.drawCells_unimpl (cells : List Nat) : (s.drawCells cells).unimpl = s.unimpl := rfl
@[simp] theorem State.drawCells_rndIn (cells : List Nat) : (s.drawCells cells).rndIn = s.rndIn := rfl
@[simp] theorem State.drawCells_draws (cells : List Nat) : (s.drawCells cells).draws = s.draws := rfl
@[simp] theorem State.drawCells_params (cells : List Nat) : (s.drawCells cells).params = s.params := rfl

end Sys2Proof.Machine
end

