-- ==== Sys2Proof/Laws/Memory.lean ====
section
/-! SUPPORT. Memory and the framebuffer: what each operation does to what is read, and that it keeps the canonical form. -/

namespace Sys2Proof.Machine

/-! ### Memory -/

theorem memRead_memWrite (p : Config.Params) (m : Memory) (a b : Nat) (v : Byte) :
    memRead p (memWrite p m a v) b = if b % Config.memSize = a % Config.memSize then v else memRead p m b :=
  cellRead_write _ _ _ _ _

theorem memWrite_wf (p : Config.Params) (m : Memory) (a : Nat) (v : Byte) (h : Memory.wf p m = true) :
    Memory.wf p (memWrite p m a v) = true :=
  cellsWf_write _ v (Nat.mod_lt _ (by decide)) h

theorem resetWith_mem_wf (p : Config.Params) : Memory.wf p (State.resetWith p).mem = true := rfl

theorem readByte_writeByte (s : State) (a b : Nat) (v : Byte) :
    (s.writeByte a v).readByte b = if b % Config.memSize = a % Config.memSize then v else s.readByte b :=
  memRead_memWrite _ _ _ _ _

/-- An address is used modulo the size of memory. -/
theorem readByte_mod (s : State) (a : Nat) : s.readByte (a % Config.memSize) = s.readByte a := by
  simp [State.readByte, memRead]

/-- Two states with the same memory and the same parameters read alike. -/
theorem readByte_congr {s t : State} (hm : t.mem = s.mem) (hp : t.params = s.params) (a : Nat) :
    t.readByte a = s.readByte a := by
  simp [State.readByte, hm, hp]

/-- Storing bytes leaves every address outside them alone. -/
theorem readByte_storeBytes_of_outside (s : State) (a : Nat) (bs : List Byte) (b : Nat)
    (h : ∀ k, k < bs.length → b % Config.memSize ≠ (a + k) % Config.memSize) :
    (s.storeBytes a bs).readByte b = s.readByte b := by
  induction bs generalizing s a with
  | nil => rfl
  | cons x bs ih =>
    have h0 : b % Config.memSize ≠ a % Config.memSize := h 0 (by simp)
    rw [State.storeBytes, ih _ _ fun k hk => ?_, readByte_writeByte, if_neg h0]
    have := h (k + 1) (by simpa using hk)
    rwa [Nat.add_right_comm a 1 k]

/-- Storing at most the whole memory: each byte is found at its own address. -/
theorem readByte_storeBytes (s : State) (a : Nat) (bs : List Byte) (hl : bs.length ≤ Config.memSize) (k : Nat)
    (hk : k < bs.length) : (s.storeBytes a bs).readByte (a + k) = bs[k] := by
  induction bs generalizing s a k with
  | nil => simp at hk
  | cons x bs ih =>
    simp only [List.length_cons] at hl hk
    cases k with
    | zero =>
      rw [State.storeBytes, readByte_storeBytes_of_outside, readByte_writeByte]
      · simp
      · intro j hj
        simp only [Config.memSize] at hl ⊢
        omega
    | succ k =>
      have := ih (s.writeByte a x) (a + 1) (by omega) k (by omega)
      rw [Nat.add_assoc, Nat.add_comm 1 k] at this
      simpa [State.storeBytes] using this

theorem storeBytes_wf (s : State) (a : Nat) (bs : List Byte) (h : Memory.wf s.params s.mem = true) :
    Memory.wf s.params (s.storeBytes a bs).mem = true := by
  induction bs generalizing s a with
  | nil => exact h
  | cons b bs ih => exact ih (s.writeByte a b) (a + 1) (memWrite_wf _ _ _ _ h)

/-! ### The framebuffer -/

theorem fbRead_fbWrite (fb : Framebuffer) (k j : Nat) (c : Pixel) :
    fbRead (fbWrite fb k c) j = if j = k then c else fbRead fb j :=
  cellRead_write _ _ _ _ _

theorem fbWrite_wf (fb : Framebuffer) (k : Nat) (c : Pixel) (hk : k < Config.fbCells) (h : fb.wf = true) :
    (fbWrite fb k c).wf = true :=
  cellsWf_write _ c hk h

/-- The framebuffer address decoder answers a cell of the framebuffer. -/
theorem fbIndex_lt (x y : Nat) : fbIndex x y < Config.fbCells := by
  have hx := Nat.mod_lt x (show 0 < 64 by decide)
  have hy := Nat.mod_lt y (show 0 < 32 by decide)
  simp only [fbIndex, Config.fbHeight, Config.fbWidth, Config.fbCells]
  omega

end Sys2Proof.Machine
end

