-- ==== Sys2Proof/Laws/Registers.lean ====
section
/-! SUPPORT. The register file: a read after each kind of write. -/

namespace Sys2Proof.Machine

theorem reg_setReg (s : State) (x r : Reg) (b : Byte) : (s.setReg x b).reg r = if r = x then b else s.reg r := by
  simp only [State.reg, State.setReg, Vector.getElem_set, BitVec.toNat_eq, eq_comm]

/-- R64: the result survives in its register, the flag in VF unless VF is that register. -/
theorem reg_setFlagThenReg (s : State) (x r : Reg) (c : Bool) (b : Byte) :
    (s.setFlagThenReg x c b).reg r = if r = x then b else if r = regF then flagByte c else s.reg r := by
  simp [State.setFlagThenReg, reg_setReg]

theorem reg_subtractInto (s : State) (x r : Reg) (a b : Byte) :
    (s.subtractInto x a b).reg r =
      if noBorrow a b then (if r = x then diffByte a b else if r = regF then 1#8 else s.reg r)
      else if r = regF then 0#8 else s.reg r := by
  unfold State.subtractInto
  split <;> simp [*, reg_setFlagThenReg, reg_setReg, flagByte]

theorem reg_loadRegs (s : State) (a : Nat) (x r : Reg) :
    (s.loadRegs a x).reg r = if r.toNat ≤ x.toNat then s.readByte (a + r.toNat) else s.reg r := by
  simp [State.reg, State.loadRegs]

theorem length_regsUpTo (s : State) (x : Reg) : (s.regsUpTo x).length = x.toNat + 1 := by
  have := x.isLt
  simp [State.regsUpTo]
  omega

theorem getElem_regsUpTo (s : State) (x : Reg) (k : Nat) (hk : k < (s.regsUpTo x).length) :
    (s.regsUpTo x)[k] = s.reg (BitVec.ofNat 4 k) := by
  have hl := length_regsUpTo s x
  have hx := x.isLt
  have : k % 16 = k := Nat.mod_eq_of_lt (by omega)
  simp [State.regsUpTo, State.reg, this]

/-! ### Updates that leave the registers alone -/

@[simp] theorem reg_skipIf (s : State) (c : Bool) (r : Reg) : (s.skipIf c).reg r = s.reg r := by
  simp [State.reg]

@[simp] theorem reg_storeBytes (s : State) (a : Nat) (bs : List Byte) (r : Reg) :
    (s.storeBytes a bs).reg r = s.reg r := by
  simp [State.reg]

@[simp] theorem reg_jump (s : State) (w : Word) (r : Reg) : (s.jump w).reg r = s.reg r := rfl
@[simp] theorem reg_push (s : State) (w : Word) (r : Reg) : (s.push w).reg r = s.reg r := rfl
@[simp] theorem reg_pop (s : State) (r : Reg) : s.pop.reg r = s.reg r := rfl
@[simp] theorem reg_advance (s : State) (r : Reg) : s.advance.reg r = s.reg r := rfl
@[simp] theorem reg_rewind (s : State) (r : Reg) : s.rewind.reg r = s.reg r := rfl

@[simp] theorem reg_consumeRnd (s : State) (r : Reg) : s.consumeRnd.reg r = s.reg r := by
  simp [State.reg]

/-- The register file is known by its registers. -/
theorem v_ext {s t : State} (h : ∀ r : Reg, t.reg r = s.reg r) : t.v = s.v := by
  apply Vector.ext
  intro k hk
  have := h (BitVec.ofNat 4 k)
  simpa [State.reg, Nat.mod_eq_of_lt hk] using this

/-- A tick takes 1 away, and stops at 0. -/
theorem toNat_tickByte (b : Byte) : (tickByte b).toNat = b.toNat - 1 := by
  unfold tickByte
  split
  · simp [*]
  · bv_omega

theorem reg_resetWith (p : Config.Params) (r : Reg) : (State.resetWith p).reg r = 0#8 := by
  simp [State.reg]

theorem key_keyWrite (s : State) (k j : BitVec 4) (b : Byte) :
    (s.keyWrite k b).key j = if j = k then b else s.key j := by
  simp only [State.key, State.keyWrite, Vector.getElem_set, BitVec.toNat_eq, eq_comm]

end Sys2Proof.Machine
end

