-- ==== Sys2Proof/Laws/Draw.lean ====
section
/-! SUPPORT. What the draw's loop does to the framebuffer, cell by cell, and where a sprite's bits fall. -/

namespace Sys2Proof.Machine

/-! ### The loop over cells -/

/-- The loop leaves every cell outside its list alone. -/
theorem toggleCells_of_not_mem (on : Pixel) (ks : List Nat) (fb : Framebuffer) (hit : Bool) (j : Nat) (hj : j ∉ ks) :
    fbRead (toggleCells on ks (fb, hit)).1 j = fbRead fb j := by
  induction ks generalizing fb hit with
  | nil => rfl
  | cons k ks ih =>
    simp only [List.mem_cons, not_or] at hj
    rw [toggleCells, ih _ _ hj.2, fbRead_fbWrite, if_neg hj.1]

/-- The loop over distinct cells XORs each of them once. -/
theorem toggleCells_of_mem (on : Pixel) (ks : List Nat) (fb : Framebuffer) (hit : Bool) (j : Nat) (hn : ks.Nodup)
    (hj : j ∈ ks) : fbRead (toggleCells on ks (fb, hit)).1 j = fbRead fb j ^^^ on := by
  induction ks generalizing fb hit with
  | nil => simp at hj
  | cons k ks ih =>
    rw [List.nodup_cons] at hn
    rcases List.mem_cons.1 hj with rfl | hj
    · rw [toggleCells, toggleCells_of_not_mem _ _ _ _ _ hn.1, fbRead_fbWrite, if_pos rfl]
    · have : j ≠ k := fun e => hn.1 (e ▸ hj)
      rw [toggleCells, ih _ _ hn.2 hj, fbRead_fbWrite, if_neg this]

/-- Over distinct cells the flag says whether one of them was lit before. -/
theorem toggleCells_hit (on : Pixel) (ks : List Nat) (fb : Framebuffer) (hit : Bool) (hn : ks.Nodup) :
    (toggleCells on ks (fb, hit)).2 = (hit || ks.any fun k => decide (fbRead fb k ≠ 0#32)) := by
  induction ks generalizing fb hit with
  | nil => simp [toggleCells]
  | cons k ks ih =>
    rw [List.nodup_cons] at hn
    have : (ks.any fun j => decide (fbRead (fbWrite fb k (fbRead fb k ^^^ on)) j ≠ 0#32)) =
        ks.any fun j => decide (fbRead fb j ≠ 0#32) := by
      rw [Bool.eq_iff_iff]
      simp only [List.any_eq_true]
      refine exists_congr fun j => and_congr_right fun hj => ?_
      have hne : j ≠ k := fun e => hn.1 (e ▸ hj)
      rw [fbRead_fbWrite, if_neg hne]
    rw [toggleCells, ih _ _ hn.2, this]
    simp [Bool.or_assoc]

theorem toggleCells_wf (on : Pixel) (ks : List Nat) (fb : Framebuffer) (hit : Bool)
    (hk : ∀ k ∈ ks, k < Config.fbCells) (h : fb.wf = true) : (toggleCells on ks (fb, hit)).1.wf = true := by
  induction ks generalizing fb hit with
  | nil => exact h
  | cons k ks ih =>
    exact ih _ _ (fun j hj => hk j (by simp [hj])) (fbWrite_wf _ _ _ (hk k (by simp)) h)

/-- If every listed cell holds PIXEL_ON before the loop, every listed cell does after it. -/
theorem toggleCells_values (on : Pixel) (ks : List Nat) (fb : Framebuffer) (hit : Bool)
    (h : ∀ p ∈ fb, p.2 = on) : ∀ p ∈ (toggleCells on ks (fb, hit)).1, p.2 = on := by
  induction ks generalizing fb hit with
  | nil => exact h
  | cons k ks ih =>
    refine ih _ _ fun p hp => ?_
    rcases mem_cellWrite _ hp with ⟨rfl, hv⟩ | hp
    · rcases cellRead_cases darkCell fb k with hm | hm
      · have : fbRead fb k = on := h _ hm
        exact absurd (by simp [this, darkCell]) hv
      · have : fbRead fb k = 0#32 := hm
        simp [this]
    · exact h p hp

/-! ### Where a sprite's bits fall -/

theorem mem_spriteCells (s : State) (x0 y0 : Byte) (base n k : Nat) :
    k ∈ s.spriteCells x0 y0 base n ↔
      ∃ r c, r < n ∧ c < 8 ∧ spriteBit (s.readByte (base + r)) c = true ∧
        fbIndex (x0.toNat + c) (y0.toNat + r) = k := by
  simp only [State.spriteCells, List.mem_flatMap, List.mem_map, List.mem_filter, List.mem_range]
  constructor
  · rintro ⟨r, hr, c, ⟨hc, hb⟩, rfl⟩
    exact ⟨r, c, hr, hc, hb, rfl⟩
  · rintro ⟨r, c, hr, hc, hb, rfl⟩
    exact ⟨r, hr, c, ⟨hc, hb⟩, rfl⟩

/-- Two positions of a sprite of at most 8 columns and 32 rows fall on the same cell only if they are the same. -/
theorem fbIndex_inj (x0 y0 r c r' c' : Nat) (hr : r < 32) (hr' : r' < 32) (hc : c < 8) (hc' : c' < 8)
    (h : fbIndex (x0 + c) (y0 + r) = fbIndex (x0 + c') (y0 + r')) : r = r' ∧ c = c' := by
  simp only [fbIndex, Config.fbHeight, Config.fbWidth] at h
  omega

/-- No two bits of a sprite fall on the same cell (45_draw.md R106 corner case d). -/
theorem nodup_spriteCells (s : State) (x0 y0 : Byte) (base n : Nat) (hn : n ≤ 32) :
    (s.spriteCells x0 y0 base n).Nodup := by
  unfold State.spriteCells
  rw [List.nodup_flatMap]
  refine ⟨fun r hr => ?_, ?_⟩
  · have hr := List.mem_range.1 hr
    refine List.Nodup.map_on (fun c hc c' hc' h => ?_) (List.nodup_range.filter _)
    have hc := List.mem_range.1 (List.mem_filter.1 hc).1
    have hc' := List.mem_range.1 (List.mem_filter.1 hc').1
    exact (fbIndex_inj _ _ _ _ _ _ (by omega) (by omega) hc hc' h).2
  · refine (List.nodup_range (n := n)).imp_of_mem fun {r r'} hr hr' hne k hk hk' => ?_
    have hr := List.mem_range.1 hr
    have hr' := List.mem_range.1 hr'
    obtain ⟨c, hc, rfl⟩ := List.mem_map.1 hk
    obtain ⟨c', hc', he⟩ := List.mem_map.1 hk'
    have hc := List.mem_range.1 (List.mem_filter.1 hc).1
    have hc' := List.mem_range.1 (List.mem_filter.1 hc').1
    exact hne (fbIndex_inj _ _ _ _ _ _ (by omega) (by omega) hc hc' he.symm).1

theorem spriteCells_lt (s : State) (x0 y0 : Byte) (base n k : Nat) (hk : k ∈ s.spriteCells x0 y0 base n) :
    k < Config.fbCells := by
  obtain ⟨r, c, -, -, -, rfl⟩ := (mem_spriteCells _ _ _ _ _ _).1 hk
  exact fbIndex_lt _ _

theorem reg_drawCells (s : State) (cells : List Nat) (r : Reg) :
    (s.drawCells cells).reg r =
      if r = regF then flagByte (toggleCells s.params.pixelOn cells (s.fb, false)).2 else s.reg r :=
  reg_setReg _ _ _ _

end Sys2Proof.Machine
end

