-- ==== Sys2Proof/Laws/Checks.lean ====
section
/-! SUPPORT. What the checks and the host's ports say, as propositions. -/

namespace Sys2Proof.Machine

theorem valid_iff (p : Config.Params) :
    p.valid = true ↔ p.pixelOn ≠ 0#32 ∧ p.stackDepth < 65536 ∧ p.font.length = 80 ∧
      p.font.take 5 = [0xF0#8, 0x90#8, 0x90#8, 0x90#8, 0xF0#8] := by
  simp only [Config.Params.valid, Config.Params.pixelOk, Config.Params.depthOk, Config.Params.fontOk,
    Bool.and_eq_true, decide_eq_true_eq, and_assoc]
  rfl

theorem imageOk_iff (img : List Byte) : imageOk img = true ↔ img.length ≤ 0xE00 := by
  simp only [imageOk, decide_eq_true_eq]
  rfl

theorem stackHasRoom_iff (s : State) : s.stackHasRoom = true ↔ s.stack.length < s.params.stackDepth := by
  simp [State.stackHasRoom]

/-- The parts of the invariant of 10_state.md R27. -/
theorem inv_iff (s : State) :
    s.inv = true ↔ s.params.valid = true ∧ s.stack.length ≤ s.params.stackDepth ∧
      (∀ p ∈ s.fb, p.2 = s.params.pixelOn) ∧ s.fb.wf = true ∧ Memory.wf s.params s.mem = true := by
  simp [State.inv, State.stackOk, State.pixelsOk, and_assoc]

/-- A load answers exactly for an image that is short enough. -/
theorem loadImage_eq_ok (s t : State) (img : List Byte) :
    s.loadImage img = .ok t ↔ img.length ≤ 0xE00 ∧ t = s.storeBytes 0x200 img := by
  rw [← imageOk_iff]
  unfold State.loadImage
  by_cases h : imageOk img = true <;> simp [h, eq_comm, Config.progBase]

/-- Where every listed cell holds PIXEL_ON, every cell reads as 0 or PIXEL_ON. -/
theorem pixel_of_pixelsOk {s : State} (h : ∀ p ∈ s.fb, p.2 = s.params.pixelOn) (k : Nat) :
    s.pixel k = 0#32 ∨ s.pixel k = s.params.pixelOn := by
  rcases cellRead_cases darkCell s.fb k with hm | hm
  · exact .inr (h _ hm)
  · exact .inl hm


theorem storeBytes_eq (s : State) (a : Nat) (bs : List Byte) :
    s.storeBytes a bs = { s with mem := (s.storeBytes a bs).mem } := by
  induction bs generalizing s a with
  | nil => rfl
  | cons b bs ih => exact ih (s.writeByte a b) (a + 1)

end Sys2Proof.Machine
end

