-- ==== Sys2Proof/Laws/Encoding.lean ====
section
/-! SUPPORT. The bits and the fields of the words the encoder builds, and that a word is put together from its fields. -/

namespace Sys2Proof

/-! ### Bits -/

theorem bit_wordA (t : BitVec 4) (nnn : Addr12) (i : Nat) :
    (wordA t nnn).getLsbD i = if i < 12 then nnn.getLsbD i else t.getLsbD (i - 12) := by
  exact BitVec.getLsbD_append.trans (by simp)

theorem wordI_eq (t : BitVec 4) (x : Reg) (kk : Byte) : wordI t x kk = wordA t (x ++ kk) := rfl

theorem wordR_eq (t : BitVec 4) (x y : Reg) (n : Nibble) : wordR t x y n = wordI t x (y ++ n) := rfl

theorem bit_wordI (t : BitVec 4) (x : Reg) (kk : Byte) (i : Nat) :
    (wordI t x kk).getLsbD i =
      if i < 12 then (if i < 8 then kk.getLsbD i else x.getLsbD (i - 8)) else t.getLsbD (i - 12) := by
  rw [wordI_eq, bit_wordA]
  congr 1
  exact BitVec.getLsbD_append.trans (by simp)

theorem bit_wordR (t : BitVec 4) (x y : Reg) (n : Nibble) (i : Nat) :
    (wordR t x y n).getLsbD i =
      if i < 12 then
        (if i < 8 then (if i < 4 then n.getLsbD i else y.getLsbD (i - 4)) else x.getLsbD (i - 8))
      else t.getLsbD (i - 12) := by
  rw [wordR_eq, bit_wordI]
  congr 2
  exact BitVec.getLsbD_append.trans (by simp)

/-! ### Fields of encoded words -/

@[simp] theorem fieldT_wordA (t : BitVec 4) (nnn : Addr12) : fieldT (wordA t nnn) = t := by
  apply BitVec.eq_of_getLsbD_eq; intro i hi; simp [fieldT, bit_wordA, hi]

@[simp] theorem fieldNNN_wordA (t : BitVec 4) (nnn : Addr12) : fieldNNN (wordA t nnn) = nnn := by
  apply BitVec.eq_of_getLsbD_eq; intro i hi; simp [fieldNNN, bit_wordA, hi]

@[simp] theorem fieldT_wordI (t : BitVec 4) (x : Reg) (kk : Byte) : fieldT (wordI t x kk) = t := by
  apply BitVec.eq_of_getLsbD_eq; intro i hi; simp [fieldT, bit_wordI, hi]

@[simp] theorem fieldX_wordI (t : BitVec 4) (x : Reg) (kk : Byte) : fieldX (wordI t x kk) = x := by
  apply BitVec.eq_of_getLsbD_eq; intro i hi; simp [fieldX, bit_wordI, hi, show 8 + i < 12 by omega]

@[simp] theorem fieldKK_wordI (t : BitVec 4) (x : Reg) (kk : Byte) : fieldKK (wordI t x kk) = kk := by
  apply BitVec.eq_of_getLsbD_eq; intro i hi; simp [fieldKK, bit_wordI, hi, show i < 12 by omega]

@[simp] theorem fieldT_wordR (t : BitVec 4) (x y : Reg) (n : Nibble) : fieldT (wordR t x y n) = t := by
  apply BitVec.eq_of_getLsbD_eq; intro i hi; simp [fieldT, bit_wordR, hi]

@[simp] theorem fieldX_wordR (t : BitVec 4) (x y : Reg) (n : Nibble) : fieldX (wordR t x y n) = x := by
  apply BitVec.eq_of_getLsbD_eq; intro i hi; simp [fieldX, bit_wordR, hi, show 8 + i < 12 by omega]

@[simp] theorem fieldY_wordR (t : BitVec 4) (x y : Reg) (n : Nibble) : fieldY (wordR t x y n) = y := by
  apply BitVec.eq_of_getLsbD_eq; intro i hi
  simp [fieldY, bit_wordR, hi, show 4 + i < 8 by omega, show 4 + i < 12 by omega]

@[simp] theorem fieldN_wordR (t : BitVec 4) (x y : Reg) (n : Nibble) : fieldN (wordR t x y n) = n := by
  apply BitVec.eq_of_getLsbD_eq; intro i hi
  simp [fieldN, bit_wordR, hi, show i < 8 by omega, show i < 12 by omega]

/-! ### A word is put together from its fields -/

theorem wordA_fields (w : Word) : wordA (fieldT w) (fieldNNN w) = w := by
  apply BitVec.eq_of_getLsbD_eq; intro i hi
  rw [bit_wordA]
  split
  · simp [fieldNNN, *]
  · simp [fieldT, show i - 12 < 4 by omega, show 12 + (i - 12) = i by omega]

theorem wordI_fields (w : Word) : wordI (fieldT w) (fieldX w) (fieldKK w) = w := by
  apply BitVec.eq_of_getLsbD_eq; intro i hi
  rw [bit_wordI]
  split
  · split
    · simp [fieldKK, *]
    · simp [fieldX, show i - 8 < 4 by omega, show 8 + (i - 8) = i by omega]
  · simp [fieldT, show i - 12 < 4 by omega, show 12 + (i - 12) = i by omega]

theorem wordR_fields (w : Word) : wordR (fieldT w) (fieldX w) (fieldY w) (fieldN w) = w := by
  apply BitVec.eq_of_getLsbD_eq; intro i hi
  rw [bit_wordR]
  split
  · split
    · split
      · simp [fieldN, *]
      · simp [fieldY, show i - 4 < 4 by omega, show 4 + (i - 4) = i by omega]
    · simp [fieldX, show i - 8 < 4 by omega, show 8 + (i - 8) = i by omega]
  · simp [fieldT, show i - 12 < 4 by omega, show 12 + (i - 12) = i by omega]

/-! ### Masks: the conjunction of two words of one shape -/

theorem wordA_and (t t' : BitVec 4) (a a' : Addr12) : wordA t a &&& wordA t' a' = wordA (t &&& t') (a &&& a') := by
  apply BitVec.eq_of_getLsbD_eq; intro i hi
  simp only [BitVec.getLsbD_and, bit_wordA]
  split <;> rfl

theorem wordI_and (t t' : BitVec 4) (x x' : Reg) (k k' : Byte) :
    wordI t x k &&& wordI t' x' k' = wordI (t &&& t') (x &&& x') (k &&& k') := by
  apply BitVec.eq_of_getLsbD_eq; intro i hi
  simp only [BitVec.getLsbD_and, bit_wordI]
  repeat' split
  all_goals rfl

theorem wordR_and (t t' : BitVec 4) (x x' y y' : Reg) (n n' : Nibble) :
    wordR t x y n &&& wordR t' x' y' n' = wordR (t &&& t') (x &&& x') (y &&& y') (n &&& n') := by
  apply BitVec.eq_of_getLsbD_eq; intro i hi
  simp only [BitVec.getLsbD_and, bit_wordR]
  repeat' split
  all_goals rfl

theorem and_ones4 (t : BitVec 4) : t &&& 0xF#4 = t := by revert t; decide

theorem and_ones8 (k : Byte) : k &&& 0xFF#8 = k := BitVec.and_allOnes

/-- The mask 0xF000 leaves T. -/
theorem wordA_mask (t : BitVec 4) (a : Addr12) : wordA t a &&& 0xF000#16 = wordA t 0#12 := by
  rw [show 0xF000#16 = wordA 0xF#4 0#12 from rfl, wordA_and]
  simp [and_ones4]

/-- The mask 0xF000 leaves T. -/
theorem wordI_maskT (t : BitVec 4) (x : Reg) (k : Byte) : wordI t x k &&& 0xF000#16 = wordA t 0#12 :=
  wordA_mask t (x ++ k)

/-- The mask 0xF000 leaves T. -/
theorem wordR_maskT (t : BitVec 4) (x y : Reg) (n : Nibble) : wordR t x y n &&& 0xF000#16 = wordA t 0#12 :=
  wordA_mask t (x ++ (y ++ n))

/-- The mask 0xF0FF leaves T and KK. -/
theorem wordI_mask (t : BitVec 4) (x : Reg) (k : Byte) : wordI t x k &&& 0xF0FF#16 = wordI t 0#4 k := by
  rw [show 0xF0FF#16 = wordI 0xF#4 0#4 0xFF#8 from rfl, wordI_and]
  simp [and_ones4, and_ones8]

/-- The mask 0xF00F leaves T and N. -/
theorem wordR_mask (t : BitVec 4) (x y : Reg) (n : Nibble) : wordR t x y n &&& 0xF00F#16 = wordR t 0#4 0#4 n := by
  rw [show 0xF00F#16 = wordR 0xF#4 0#4 0#4 0xF#4 from rfl, wordR_and]
  simp [and_ones4]

/-! ### Bytes of a word -/

theorem highByte_append (hi lo : Byte) : highByte (hi ++ lo) = hi := by
  apply BitVec.eq_of_getLsbD_eq; intro i h
  refine (BitVec.getLsbD_extractLsb' _ _ _ _).trans ?_
  simp only [h, decide_true, Bool.true_and]
  exact BitVec.getLsbD_append.trans (by simp)

theorem lowByte_append (hi lo : Byte) : lowByte (hi ++ lo) = lo := by
  apply BitVec.eq_of_getLsbD_eq; intro i h
  refine (BitVec.getLsbD_extractLsb' _ _ _ _).trans ?_
  simp only [h, decide_true, Bool.true_and, Nat.zero_add]
  exact BitVec.getLsbD_append.trans (by simp [h])

theorem highByte_append_lowByte (w : Word) : highByte w ++ lowByte w = w := by
  apply BitVec.eq_of_getLsbD_eq; intro i hi
  have h : (highByte w ++ lowByte w).getLsbD i = if i < 8 then (lowByte w).getLsbD i else (highByte w).getLsbD (i - 8) :=
    BitVec.getLsbD_append.trans (by simp)
  refine Eq.trans h ?_
  split
  · simp [lowByte, *]
  · simp [highByte, show i - 8 < 8 by omega, show 8 + (i - 8) = i by omega]

end Sys2Proof
end

