-- ==== Sys2Proof/Laws/Count.lean ====
section
/-! SUPPORT. Counting words field by field: how many of the 65536 words have fields that satisfy four independent conditions. -/

namespace Sys2Proof

/-- Over the numbers below m * n, a condition on the quotient by n and one on the remainder are counted apart. -/
theorem countP_range_and (p q r : Nat → Bool) (m n : Nat)
    (h : ∀ i k, i < m → k < n → r (i * n + k) = (p i && q k)) :
    (List.range (m * n)).countP r = (List.range m).countP p * (List.range n).countP q := by
  induction m with
  | zero => simp
  | succ m ih =>
    have row : (List.range n).countP (fun k => r (m * n + k)) = (List.range n).countP fun k => p m && q k := by
      refine List.countP_congr fun k hk => ?_
      rw [h m k m.lt_succ_self (List.mem_range.1 hk)]
    rw [Nat.succ_mul, List.range_add, List.countP_append, ih fun i k hi => h i k (by omega), List.countP_map,
      Function.comp_def, row, List.range_succ, List.countP_append]
    cases hp : p m <;> simp [hp, Nat.add_mul]

/-- A number below 65536 as a word, from its four digits. -/
theorem ofNat_digits (t x y n : Nat) (ht : t < 16) (hx : x < 16) (hy : y < 16) (hn : n < 16) :
    BitVec.ofNat 16 (t * 4096 + (x * 256 + (y * 16 + n))) =
      wordR (BitVec.ofNat 4 t) (BitVec.ofNat 4 x) (BitVec.ofNat 4 y) (BitVec.ofNat 4 n) := by
  have e : ∀ a b k : Nat, b < 2 ^ k → a <<< k ||| b = a * 2 ^ k + b := fun a b k h => by
    rw [← Nat.shiftLeft_add_eq_or_of_lt h, Nat.shiftLeft_eq]
  apply BitVec.eq_of_toNat_eq
  simp only [wordR, BitVec.toNat_append, BitVec.toNat_ofNat, Nat.reducePow]
  rw [Nat.mod_eq_of_lt ht, Nat.mod_eq_of_lt hx, Nat.mod_eq_of_lt hy, Nat.mod_eq_of_lt hn, e y n 4 hn,
    e x _ 8 (by omega), e t _ 12 (by omega)]
  omega

theorem wordR_inj (t x y n t' x' y' n' : BitVec 4) :
    wordR t x y n = wordR t' x' y' n' ↔ t = t' ∧ x = x' ∧ y = y' ∧ n = n' := by
  refine ⟨fun h => ⟨?_, ?_, ?_, ?_⟩, by rintro ⟨rfl, rfl, rfl, rfl⟩; rfl⟩
  · simpa using congrArg fieldT h
  · simpa using congrArg fieldX h
  · simpa using congrArg fieldY h
  · simpa using congrArg fieldN h

/-- A condition on words that is one condition on each digit. -/
theorem countP_words (p q r u : BitVec 4 → Bool) (f : Word → Bool)
    (hf : ∀ t x y n, f (wordR t x y n) = (p t && (q x && (r y && u n)))) :
    (List.range 65536).countP (fun w => f (BitVec.ofNat 16 w)) =
      (List.range 16).countP (fun k => p (BitVec.ofNat 4 k)) *
        ((List.range 16).countP (fun k => q (BitVec.ofNat 4 k)) *
          ((List.range 16).countP (fun k => r (BitVec.ofNat 4 k)) *
            (List.range 16).countP fun k => u (BitVec.ofNat 4 k))) := by
  have low := countP_range_and (fun k => r (BitVec.ofNat 4 k)) (fun k => u (BitVec.ofNat 4 k))
    (fun k => r (BitVec.ofNat 4 (k / 16)) && u (BitVec.ofNat 4 (k % 16))) 16 16 fun i k _ hk => by
      rw [show (i * 16 + k) / 16 = i by omega, show (i * 16 + k) % 16 = k by omega]
  have mid := countP_range_and (fun k => q (BitVec.ofNat 4 k))
    (fun k => r (BitVec.ofNat 4 (k / 16)) && u (BitVec.ofNat 4 (k % 16)))
    (fun k => q (BitVec.ofNat 4 (k / 256)) && (r (BitVec.ofNat 4 (k % 256 / 16)) && u (BitVec.ofNat 4 (k % 16))))
    16 (16 * 16) fun i k _ hk => by
      rw [show (i * (16 * 16) + k) / 256 = i by omega, show (i * (16 * 16) + k) % 256 = k by omega,
        show (i * (16 * 16) + k) % 16 = k % 16 by omega]
  have all := countP_range_and (fun k => p (BitVec.ofNat 4 k))
    (fun k => q (BitVec.ofNat 4 (k / 256)) && (r (BitVec.ofNat 4 (k % 256 / 16)) && u (BitVec.ofNat 4 (k % 16))))
    (fun w => f (BitVec.ofNat 16 w)) 16 (16 * (16 * 16)) fun i k hi hk => by
      rw [show i * (16 * (16 * 16)) + k = i * 4096 + (k / 256 * 256 + (k % 256 / 16 * 16 + k % 16)) by omega,
        ofNat_digits i (k / 256) (k % 256 / 16) (k % 16) hi (by omega) (by omega) (by omega), hf]
  rw [low] at mid
  rw [mid] at all
  exact all

/-- Of conditions no two of which hold together, those that hold of some one are counted by the sum. -/
theorem countP_any {α : Type} (rows : List α) (q : Nat → α → Bool) (ws : List Nat)
    (hx : rows.Pairwise fun a b => ∀ w, q w a = true → q w b = false) :
    ws.countP (fun w => rows.any (q w)) = (rows.map fun a => ws.countP fun w => q w a).sum := by
  induction rows with
  | nil => simp
  | cons a rows ih =>
    rw [List.pairwise_cons] at hx
    rw [List.map_cons, List.sum_cons, ← ih hx.2]
    clear ih
    induction ws with
    | nil => rfl
    | cons w ws ih =>
      simp only [List.any_cons] at ih ⊢
      simp only [List.countP_cons, ih]
      cases ha : q w a
      · simp only [Bool.false_or, Bool.false_eq_true, if_false]; omega
      · have : rows.any (q w) = false := by
          rw [List.any_eq_false]
          intro b hb
          simp [hx.1 b hb w ha]
        simp only [this, Bool.true_or, Bool.false_eq_true, if_true, if_false]; omega

/-- What a condition leaves over. -/
theorem countP_not {α : Type} (p : α → Bool) (ws : List α) (a b : Nat) (h : ws.countP p = a) (hl : ws.length = a + b) :
    ws.countP (fun w => !p w) = b := by
  have := List.length_eq_countP_add_countP (p := p) (l := ws)
  have e : (fun w => decide ¬p w = true) = fun w => !p w := by
    funext w
    cases p w <;> rfl
  rw [e] at this
  omega

end Sys2Proof
end

