-- ==== Sys2Proof/Laws/Step.lean ====
section
/-! SUPPORT. What a step is, once and for all: every proof about steps cites these lemmas and unfolds no step. -/

namespace Sys2Proof.Machine

/-! ### Views that the parts of a step do not change -/

@[simp] theorem reg_begin (s : State) (r : Reg) : s.begin.reg r = s.reg r := rfl
@[simp] theorem reg_tick (s : State) (r : Reg) : s.tick.reg r = s.reg r := rfl
@[simp] theorem reg_unmatched (s : State) (r : Reg) : s.unmatched.reg r = s.reg r := rfl
@[simp] theorem readByte_begin (s : State) (a : Nat) : s.begin.readByte a = s.readByte a := rfl
@[simp] theorem readByte_tick (s : State) (a : Nat) : s.tick.readByte a = s.readByte a := rfl
@[simp] theorem readByte_unmatched (s : State) (a : Nat) : s.unmatched.readByte a = s.readByte a := rfl
@[simp] theorem key_begin (s : State) (k : BitVec 4) : s.begin.key k = s.key k := rfl
@[simp] theorem pixel_begin (s : State) (k : Nat) : s.begin.pixel k = s.pixel k := rfl
@[simp] theorem pixel_tick (s : State) (k : Nat) : s.tick.pixel k = s.pixel k := rfl
@[simp] theorem rnd_begin (s : State) : s.begin.rnd = s.rnd := rfl
@[simp] theorem firstPressed_begin (s : State) : s.begin.firstPressed = s.firstPressed := rfl

/-- Two states with the same register file have the same registers. -/
theorem reg_congr {s t : State} (h : t.v = s.v) (r : Reg) : t.reg r = s.reg r := by simp [State.reg, h]

/-- Two states with the same framebuffer show alike. -/
theorem pixel_congr {s t : State} (h : t.fb = s.fb) (k : Nat) : t.pixel k = s.pixel k := by simp [State.pixel, h]

/-! ### The fetched word and what a store leaves in it -/

theorem highByte_fetchWord (s : State) : highByte s.fetchWord = s.readByte s.pc.toNat := highByte_append _ _

theorem lowByte_fetchWord (s : State) : lowByte s.fetchWord = s.readByte (s.pc.toNat + 1) := lowByte_append _ _

/-- Every address reads, after bytes are stored, as the byte stored there or else as before. -/
theorem readsAfterStore_storeBytes (s : State) (base : Nat) (bs : List Byte) (hl : bs.length ≤ Config.memSize) (a : Nat) :
    ReadsAfterStore s base bs a ((s.storeBytes base bs).readByte a) := by
  refine ⟨fun k hk e => ?_, fun h => readByte_storeBytes_of_outside _ _ _ _ fun k hk => (h k hk).symm⟩
  rw [← readByte_storeBytes s base bs hl k hk, ← readByte_mod, ← readByte_mod _ (base + k)]
  exact congrArg _ e.symm

/-! ### The instruction at pc -/

theorem current_eq_some (s : State) (i : Instr) : s.current = some i ↔ decodeWord s.fetchWord = .ok i := by
  unfold State.current
  cases decodeWord s.fetchWord <;> simp

/-- The decoder on bytes reads the word they make. -/
theorem decode_two (hi lo : Byte) (rest : List Byte) (i : Instr) (rest' : List Byte) :
    decode (hi :: lo :: rest) = .ok (i, rest') ↔ decodeWord (hi ++ lo) = .ok i ∧ rest' = rest := by
  have h : decode (hi :: lo :: rest) =
      match decodeWord (hi ++ lo) with
      | .ok i => .ok (i, rest)
      | .error e => .error e := rfl
  rw [h]
  generalize decodeWord (hi ++ lo) = r
  cases r <;> simp [eq_comm]

/-! ### The step -/

theorem step_of_current {s : State} {i : Instr} (h : s.current = some i) : step s = finishStep (exec i s.begin) := by
  rw [current_eq_some] at h
  simp [step, h]

theorem step_of_no_current {s : State} (h : s.current = none) : step s = .next s.begin.unmatched.tick := by
  unfold step
  cases hd : decodeWord s.fetchWord with
  | ok i => rw [(current_eq_some s i).2 hd] at h; cases h
  | error e => rfl

theorem finishStep_eq_next {r : Result} {t : State} : finishStep r = .next t ↔ ∃ u, r = .next u ∧ t = u.tick := by
  cases r <;> simp [finishStep, eq_comm]

/-- All a step can do: run the instruction at pc between the pre-increment and the tick, or, when there is none, nothing
between them. -/
theorem step_next_cases {s t : State} (h : step s = .next t) :
    (∃ i u, s.current = some i ∧ exec i s.begin = .next u ∧ t = u.tick) ∨
      (s.current = none ∧ t = s.begin.unmatched.tick) := by
  cases hc : s.current with
  | some i =>
    rw [step_of_current hc, finishStep_eq_next] at h
    obtain ⟨u, hu, rfl⟩ := h
    exact .inl ⟨i, u, rfl, hu, rfl⟩
  | none =>
    rw [step_of_no_current hc] at h
    cases h
    exact .inr ⟨rfl, rfl⟩

/-! ### Runs -/

/-- Steps may be put before a hosted run as well as after it. -/
theorem hostedRun_cons {P : State → Prop} {n : Nat} {s t u : State} (hp : P s) (h : step s = .next t)
    (hr : HostedRun P n t u) : HostedRun P (n + 1) s u := by
  induction hr with
  | start t => exact .step _ _ _ _ (.start s) hp h
  | keyWrite n t u k b _ ih => exact .keyWrite _ _ _ k b (ih h)
  | driveRnd n t u b _ ih => exact .driveRnd _ _ _ b (ih h)
  | step n t u w _ hu hw ih => exact .step _ _ _ _ (ih h) hu hw

/-- A run under fuel is a hosted run in which the host does nothing. -/
theorem hostedRun_of_runSteps {n : Nat} {s t : State} (h : runSteps n s = .next t) :
    HostedRun (fun _ => True) n s t := by
  induction n generalizing s with
  | zero => cases h; exact .start _
  | succ n ih =>
    unfold runSteps at h
    split at h
    · next u hu => exact hostedRun_cons trivial hu (ih h)
    · cases h
    · cases h

end Sys2Proof.Machine
end

