-- ==== Sys2Proof/Laws/Exec.lean ====
section
/-! SUPPORT. What each instruction's `exec` answers, over the shared operations: proofs cite these lemmas and unfold no
meaning. The three instructions with two outcomes have one lemma for each. -/

namespace Sys2Proof.Machine

variable (s : State)

theorem exec_cls :
    exec .cls s = .next ({ s with fb := [] }) := rfl
theorem exec_ret_empty (h : s.stack = []) : exec .ret s = .next s := by simp [exec, execRet, h]
theorem exec_ret_pop (below : List Word) (top : Word) (h : s.stack = below ++ [top]) :
    exec .ret s = .next (s.pop.jump top) := by simp [exec, execRet, h]
theorem exec_jp (nnn : Addr12) :
    exec (.jp nnn) s = .next (s.jump (addrWord nnn)) := rfl
theorem exec_call_room (nnn : Addr12) (h : s.stack.length < s.params.stackDepth) :
    exec (.call nnn) s = .next ((s.push s.pc).jump (addrWord nnn)) := by simp [exec, execCall, State.stackHasRoom, h]
theorem exec_call_full (nnn : Addr12) (h : s.params.stackDepth ≤ s.stack.length) : exec (.call nnn) s = .next s := by
  simp [exec, execCall, State.stackHasRoom, h]
theorem exec_seVxKK (x : Reg) (kk : Byte) :
    exec (.seVxKK x kk) s = .next (s.skipIf (s.reg x == kk)) := rfl
theorem exec_sneVxKK (x : Reg) (kk : Byte) :
    exec (.sneVxKK x kk) s = .next (s.skipIf (s.reg x != kk)) := rfl
theorem exec_seVxVy (x y : Reg) :
    exec (.seVxVy x y) s = .next (s.skipIf (s.reg x == s.reg y)) := rfl
theorem exec_sneVxVy (x y : Reg) :
    exec (.sneVxVy x y) s = .next (s.skipIf (s.reg x != s.reg y)) := rfl
theorem exec_ldVxKK (x : Reg) (kk : Byte) :
    exec (.ldVxKK x kk) s = .next (s.setReg x kk) := rfl
theorem exec_addVxKK (x : Reg) (kk : Byte) :
    exec (.addVxKK x kk) s = .next (s.setReg x (sumByte (s.reg x) kk)) := rfl
theorem exec_ldVxVy (x y : Reg) :
    exec (.ldVxVy x y) s = .next (s.setReg x (s.reg y)) := rfl
theorem exec_orVxVy (x y : Reg) :
    exec (.orVxVy x y) s = .next (s.setReg x (s.reg x ||| s.reg y)) := rfl
theorem exec_andVxVy (x y : Reg) :
    exec (.andVxVy x y) s = .next (s.setReg x (s.reg x &&& s.reg y)) := rfl
theorem exec_xorVxVy (x y : Reg) :
    exec (.xorVxVy x y) s = .next (s.setReg x (s.reg x ^^^ s.reg y)) := rfl
theorem exec_addVxVy (x y : Reg) :
    exec (.addVxVy x y) s = .next (s.setFlagThenReg x (carryOut (s.reg x) (s.reg y)) (sumByte (s.reg x) (s.reg y))) := rfl
theorem exec_subVxVy (x y : Reg) :
    exec (.subVxVy x y) s = .next (s.subtractInto x (s.reg x) (s.reg y)) := rfl
theorem exec_shrVx (x y : Reg) :
    exec (.shrVx x y) s = .next (s.setFlagThenReg x (lowBit (s.reg x)) (shiftRightByte (s.reg x))) := rfl
theorem exec_subnVxVy (x y : Reg) :
    exec (.subnVxVy x y) s = .next (s.subtractInto x (s.reg y) (s.reg x)) := rfl
theorem exec_shlVx (x y : Reg) :
    exec (.shlVx x y) s = .next (s.setFlagThenReg x (lowBit (s.reg x)) (shiftLeftByte (s.reg x))) := rfl
theorem exec_ldINNN (nnn : Addr12) :
    exec (.ldINNN nnn) s = .next ({ s with i := addrWord nnn }) := rfl
theorem exec_jpV0NNN (nnn : Addr12) :
    exec (.jpV0NNN nnn) s = .next (s.jump (addrWord nnn + byteWord (s.reg 0#4))) := rfl
theorem exec_rndVxKK (x : Reg) (kk : Byte) :
    exec (.rndVxKK x kk) s = .next (s.consumeRnd.setReg x (s.rnd &&& kk)) := rfl
theorem exec_drwVxVyN (x y : Reg) (n : Nibble) :
    exec (.drwVxVyN x y n) s = .next (s.drawCells (s.spriteCells (s.reg x) (s.reg y) s.i.toNat n.toNat)) := rfl
theorem exec_skpVx (x : Reg) :
    exec (.skpVx x) s = .next (s.skipIf (s.keyPressed (s.reg x))) := rfl
theorem exec_sknpVx (x : Reg) :
    exec (.sknpVx x) s = .next (s.skipIf (!s.keyPressed (s.reg x))) := rfl
theorem exec_ldVxDT (x : Reg) :
    exec (.ldVxDT x) s = .next (s.setReg x s.dt) := rfl
theorem exec_ldDTVx (x : Reg) :
    exec (.ldDTVx x) s = .next ({ s with dt := s.reg x }) := rfl
theorem exec_ldVxK_pressed (x : Reg) (k : BitVec 4) (h : s.firstPressed = some k) :
    exec (.ldVxK x) s = .next (s.setReg x (k.setWidth 8)) := by simp [exec, execLdVxK, h]
theorem exec_ldVxK_none (x : Reg) (h : s.firstPressed = none) : exec (.ldVxK x) s = .next s.rewind := by
  simp [exec, execLdVxK, h]
theorem exec_addIVx (x : Reg) :
    exec (.addIVx x) s = .next ({ s with i := s.i + byteWord (s.reg x) }) := rfl
theorem exec_ldBVx (x : Reg) :
    exec (.ldBVx x) s = .next (s.storeBytes s.i.toNat (decimalDigits (s.reg x))) := rfl
theorem exec_ldMemVx (x : Reg) :
    exec (.ldMemVx x) s = .next (s.storeBytes s.i.toNat (s.regsUpTo x)) := rfl
theorem exec_ldVxMem (x : Reg) :
    exec (.ldVxMem x) s = .next (s.loadRegs s.i.toNat x) := rfl

/-! ### The key scan -/

theorem firstPressed_eq_none : s.firstPressed = none ↔ ∀ k : BitVec 4, s.key k = 0#8 := by
  have h : ∀ k : BitVec 4, k ∈ keyNumbers := by decide
  simp [State.firstPressed, h]

/-- The scan answers the least pressed key. -/
theorem firstPressed_eq_some (k : BitVec 4) (hk : s.key k ≠ 0#8)
    (hl : ∀ j : BitVec 4, j.toNat < k.toNat → s.key j = 0#8) : s.firstPressed = some k := by
  have key : ∀ k : BitVec 4, ∃ as bs, keyNumbers = as ++ k :: bs ∧ ∀ j ∈ as, j.toNat < k.toNat := by
    intro k
    exact ⟨keyNumbers.take k.toNat, keyNumbers.drop (k.toNat + 1), by revert k; decide, by revert k; decide⟩
  obtain ⟨as, bs, h, hlt⟩ := key k
  exact List.find?_eq_some_iff_append.2 ⟨by simp [hk], as, bs, h, fun j hj => by simp [hl j (hlt j hj)]⟩

/-! ### The instructions with two outcomes, from the answer back -/

variable {s} {t : State}

theorem exec_ret_cases (h : exec .ret s = .next t) :
    (s.stack = [] ∧ t = s) ∨ ∃ below top, s.stack = below ++ [top] ∧ t = s.pop.jump top := by
  rcases List.eq_nil_or_concat s.stack with hs | ⟨below, top, hs⟩
  · rw [exec_ret_empty s hs] at h
    exact .inl ⟨hs, (Host.Outcome.next.inj h).symm⟩
  · rw [exec_ret_pop s below top (by simpa using hs)] at h
    exact .inr ⟨below, top, by simpa using hs, (Host.Outcome.next.inj h).symm⟩

theorem exec_call_cases {nnn : Addr12} (h : exec (.call nnn) s = .next t) :
    (s.params.stackDepth ≤ s.stack.length ∧ t = s) ∨
      (s.stack.length < s.params.stackDepth ∧ t = (s.push s.pc).jump (addrWord nnn)) := by
  by_cases hs : s.stack.length < s.params.stackDepth
  · rw [exec_call_room s nnn hs] at h
    exact .inr ⟨hs, (Host.Outcome.next.inj h).symm⟩
  · rw [exec_call_full s nnn (by omega)] at h
    exact .inl ⟨by omega, (Host.Outcome.next.inj h).symm⟩

theorem exec_ldVxK_cases {x : Reg} (h : exec (.ldVxK x) s = .next t) :
    (s.firstPressed = none ∧ t = s.rewind) ∨ ∃ k, s.firstPressed = some k ∧ t = s.setReg x (k.setWidth 8) := by
  cases hs : s.firstPressed with
  | none =>
    rw [exec_ldVxK_none s x hs] at h
    exact .inl ⟨rfl, (Host.Outcome.next.inj h).symm⟩
  | some k =>
    rw [exec_ldVxK_pressed s x k hs] at h
    exact .inr ⟨k, rfl, (Host.Outcome.next.inj h).symm⟩

end Sys2Proof.Machine
end

