-- ==== Sys2Proof/Laws/PerInstr.lean ====
section
/-! SUPPORT. The family RowOfEncoding: the word of an instruction matches its own row of the dispatch table (30_encoding.md
R55). One lemma per constructor. -/

namespace Sys2Proof.Laws.RowOfEncoding

/-- The word of the instruction, masked by its row's mask, is its row's match. -/
def Statement (i : Instr) : Prop := rowMatches (encode i) i.maskMatch = true

theorem cls : Statement (.cls) := rfl
theorem ret : Statement (.ret) := rfl
theorem jp (nnn : Addr12) : Statement (.jp nnn) := decide_eq_true (wordA_mask _ _)
theorem call (nnn : Addr12) : Statement (.call nnn) := decide_eq_true (wordA_mask _ _)
theorem seVxKK (x : Reg) (kk : Byte) : Statement (.seVxKK x kk) := decide_eq_true (wordI_maskT _ _ _)
theorem sneVxKK (x : Reg) (kk : Byte) : Statement (.sneVxKK x kk) := decide_eq_true (wordI_maskT _ _ _)
theorem seVxVy (x y : Reg) : Statement (.seVxVy x y) := decide_eq_true (wordR_mask _ _ _ _)
theorem sneVxVy (x y : Reg) : Statement (.sneVxVy x y) := decide_eq_true (wordR_mask _ _ _ _)
theorem ldVxKK (x : Reg) (kk : Byte) : Statement (.ldVxKK x kk) := decide_eq_true (wordI_maskT _ _ _)
theorem addVxKK (x : Reg) (kk : Byte) : Statement (.addVxKK x kk) := decide_eq_true (wordI_maskT _ _ _)
theorem ldVxVy (x y : Reg) : Statement (.ldVxVy x y) := decide_eq_true (wordR_mask _ _ _ _)
theorem orVxVy (x y : Reg) : Statement (.orVxVy x y) := decide_eq_true (wordR_mask _ _ _ _)
theorem andVxVy (x y : Reg) : Statement (.andVxVy x y) := decide_eq_true (wordR_mask _ _ _ _)
theorem xorVxVy (x y : Reg) : Statement (.xorVxVy x y) := decide_eq_true (wordR_mask _ _ _ _)
theorem addVxVy (x y : Reg) : Statement (.addVxVy x y) := decide_eq_true (wordR_mask _ _ _ _)
theorem subVxVy (x y : Reg) : Statement (.subVxVy x y) := decide_eq_true (wordR_mask _ _ _ _)
theorem shrVx (x y : Reg) : Statement (.shrVx x y) := decide_eq_true (wordR_mask _ _ _ _)
theorem subnVxVy (x y : Reg) : Statement (.subnVxVy x y) := decide_eq_true (wordR_mask _ _ _ _)
theorem shlVx (x y : Reg) : Statement (.shlVx x y) := decide_eq_true (wordR_mask _ _ _ _)
theorem ldINNN (nnn : Addr12) : Statement (.ldINNN nnn) := decide_eq_true (wordA_mask _ _)
theorem jpV0NNN (nnn : Addr12) : Statement (.jpV0NNN nnn) := decide_eq_true (wordA_mask _ _)
theorem rndVxKK (x : Reg) (kk : Byte) : Statement (.rndVxKK x kk) := decide_eq_true (wordI_maskT _ _ _)
theorem drwVxVyN (x y : Reg) (n : Nibble) : Statement (.drwVxVyN x y n) := decide_eq_true (wordR_maskT _ _ _ _)
theorem skpVx (x : Reg) : Statement (.skpVx x) := decide_eq_true (wordI_mask _ _ _)
theorem sknpVx (x : Reg) : Statement (.sknpVx x) := decide_eq_true (wordI_mask _ _ _)
theorem ldVxDT (x : Reg) : Statement (.ldVxDT x) := decide_eq_true (wordI_mask _ _ _)
theorem ldDTVx (x : Reg) : Statement (.ldDTVx x) := decide_eq_true (wordI_mask _ _ _)
theorem ldVxK (x : Reg) : Statement (.ldVxK x) := decide_eq_true (wordI_mask _ _ _)
theorem addIVx (x : Reg) : Statement (.addIVx x) := decide_eq_true (wordI_mask _ _ _)
theorem ldBVx (x : Reg) : Statement (.ldBVx x) := decide_eq_true (wordI_mask _ _ _)
theorem ldMemVx (x : Reg) : Statement (.ldMemVx x) := decide_eq_true (wordI_mask _ _ _)
theorem ldVxMem (x : Reg) : Statement (.ldVxMem x) := decide_eq_true (wordI_mask _ _ _)

end Sys2Proof.Laws.RowOfEncoding
end

