-- ==== Sys2Proof/Machine/Spelling.lean ====
section
/-! DEFINITION. How an instruction is spelt (30_encoding.md R59, the mnemonics of R55; decision D29). Names only: the word of
four hexadecimal digits is the authoritative spelling, and no step reads this file. -/

namespace Sys2Proof.Machine

/-- A hexadecimal digit. -/
def hexDigit (d : BitVec 4) : Char :=
  ['0', '1', '2', '3', '4', '5', '6', '7', '8', '9', 'A', 'B', 'C', 'D', 'E', 'F'].getD d.toNat '0'

/-- Vx: the register number is one hexadecimal digit. -/
def regText (x : Reg) : String := String.ofList ['V', hexDigit x]

/-- KK as a number. -/
def byteText (b : Byte) : String :=
  String.ofList ['0', 'x', hexDigit (b.extractLsb' 4 4), hexDigit (b.extractLsb' 0 4)]

/-- NNN as a number. -/
def addrText (a : Addr12) : String :=
  String.ofList ['0', 'x', hexDigit (a.extractLsb' 8 4), hexDigit (a.extractLsb' 4 4), hexDigit (a.extractLsb' 0 4)]

/-- N as a number. -/
def nibbleText (n : Nibble) : String := String.ofList ['0', 'x', hexDigit n]

/-- The word as four hexadecimal digits. -/
def wordText (w : Word) : String :=
  String.ofList [hexDigit (fieldT w), hexDigit (fieldX w), hexDigit (fieldY w), hexDigit (fieldN w)]

/-- A mnemonic and one operand. -/
def spell1 (name a : String) : String := name ++ " " ++ a

/-- A mnemonic and two operands. -/
def spell2 (name a b : String) : String := name ++ " " ++ a ++ ", " ++ b

/-- R59: the mnemonic, then the operands separated by commas. -/
def spell : Instr → String
  | .cls => "CLS"
  | .ret => "RET"
  | .jp nnn => spell1 "JP" (addrText nnn)
  | .call nnn => spell1 "CALL" (addrText nnn)
  | .seVxKK x kk => spell2 "SE" (regText x) (byteText kk)
  | .sneVxKK x kk => spell2 "SNE" (regText x) (byteText kk)
  | .seVxVy x y => spell2 "SE" (regText x) (regText y)
  | .sneVxVy x y => spell2 "SNE" (regText x) (regText y)
  | .ldVxKK x kk => spell2 "LD" (regText x) (byteText kk)
  | .addVxKK x kk => spell2 "ADD" (regText x) (byteText kk)
  | .ldVxVy x y => spell2 "LD" (regText x) (regText y)
  | .orVxVy x y => spell2 "OR" (regText x) (regText y)
  | .andVxVy x y => spell2 "AND" (regText x) (regText y)
  | .xorVxVy x y => spell2 "XOR" (regText x) (regText y)
  | .addVxVy x y => spell2 "ADD" (regText x) (regText y)
  | .subVxVy x y => spell2 "SUB" (regText x) (regText y)
  | .shrVx x _ => spell1 "SHR" (regText x)
  | .subnVxVy x y => spell2 "SUBN" (regText x) (regText y)
  | .shlVx x _ => spell1 "SHL" (regText x)
  | .ldINNN nnn => spell2 "LD" "I" (addrText nnn)
  | .jpV0NNN nnn => spell2 "JP" "V0" (addrText nnn)
  | .rndVxKK x kk => spell2 "RND" (regText x) (byteText kk)
  | .drwVxVyN x y n => spell2 "DRW" (regText x) (regText y ++ ", " ++ nibbleText n)
  | .skpVx x => spell1 "SKP" (regText x)
  | .sknpVx x => spell1 "SKNP" (regText x)
  | .ldVxDT x => spell2 "LD" (regText x) "DT"
  | .ldDTVx x => spell2 "LD" "DT" (regText x)
  | .ldVxK x => spell2 "LD" (regText x) "K"
  | .addIVx x => spell2 "ADD" "I" (regText x)
  | .ldBVx x => spell2 "LD" "B" (regText x)
  | .ldMemVx x => spell2 "LD" "[I]" (regText x)
  | .ldVxMem x => spell2 "LD" (regText x) "[I]"

end Sys2Proof.Machine
end

