-- ==== Sys2Proof/Tests/Slice0.lean ====
section
/-! SUPPORT. The model's own tests. Expected values are worked from the spec's rules, most of them by 95_test_vectors.md,
whose vector's number is then given. The last part shows, for every statement with hypotheses, states and operands that meet
them all. -/

namespace Sys2Proof.Tests

open Sys2Proof.Machine

/-! ### Helpers -/

/-- The reset state with an instruction at 0x200 and some registers set. -/
def start (w : Nat) (regs : List (Reg × Byte)) : State :=
  regs.foldl (fun s p => s.setReg p.1 p.2) (State.reset.withFetchWord 16 w)

/-- What a step leaves, seen through a function. -/
def seen {α : Type} (r : Result) (f : State → α) : Option α :=
  match r with
  | .next t => some (f t)
  | .fault _ => none
  | .refused _ => none

/-- What one step from a state leaves, seen through a function. -/
def after {α : Type} (s : State) (f : State → α) : Option α := seen (step s) f

/-- The state one step leaves. -/
def stepped (s : State) : State :=
  match step s with
  | .next t => t
  | .fault _ => s
  | .refused _ => s

theorem step_stepped {s : State} (h : after s (fun _ => true) = some true) : step s = .next (stepped s) := by
  unfold after seen at h
  unfold stepped
  split at h <;> simp_all

/-! ### The well-formedness checks refuse ill-formed terms -/

theorem test_valid_accepts_the_defaults : defaultParams.valid = true := by decide
theorem test_pixelOk_refuses_zero : Config.Params.valid ⟨16, 0#32, defaultFont⟩ = false := by decide
theorem test_depthOk_refuses_65536 : Config.Params.valid ⟨65536, 1#32, defaultFont⟩ = false := by decide
theorem test_depthOk_accepts_65535 : Config.Params.valid ⟨65535, 1#32, defaultFont⟩ = true := by decide
theorem test_fontOk_refuses_a_short_font : Config.Params.valid ⟨16, 1#32, defaultFont.dropLast⟩ = false := by decide
theorem test_fontOk_refuses_another_glyph_zero :
    Config.Params.valid ⟨16, 1#32, 0xF1#8 :: defaultFont.tail⟩ = false := by decide

/-- T10-04, T10-05. -/
theorem test_imageOk_bounds :
    imageOk (List.replicate 0xE00 0#8) = true ∧ imageOk (List.replicate 0xE01 0#8) = false := by
  simp only [imageOk, List.length_replicate]
  decide

/-! ### Decoding: one word of every row, written out from 30_encoding.md R55 (T30-01 to T30-32) -/

theorem test_decode_flow :
    decodeTableWord 16 0x00E0 = some .cls ∧ decodeTableWord 16 0x00EE = some .ret ∧
    decodeTableWord 16 0x1ABC = some (.jp 0xABC#12) ∧ decodeTableWord 16 0x2DEF = some (.call 0xDEF#12) ∧
    decodeTableWord 16 0xB456 = some (.jpV0NNN 0x456#12) := by decide

theorem test_decode_skips :
    decodeTableWord 16 0x3A7F = some (.seVxKK 0xA#4 0x7F#8) ∧ decodeTableWord 16 0x4B80 = some (.sneVxKK 0xB#4 0x80#8) ∧
    decodeTableWord 16 0x5CD0 = some (.seVxVy 0xC#4 0xD#4) ∧ decodeTableWord 16 0x9EF0 = some (.sneVxVy 0xE#4 0xF#4) ∧
    decodeTableWord 16 0xE39E = some (.skpVx 0x3#4) ∧ decodeTableWord 16 0xE4A1 = some (.sknpVx 0x4#4) := by decide

theorem test_decode_immediate :
    decodeTableWord 16 0x60FF = some (.ldVxKK 0x0#4 0xFF#8) ∧ decodeTableWord 16 0x7F01 = some (.addVxKK 0xF#4 0x01#8) ∧
    decodeTableWord 16 0xA123 = some (.ldINNN 0x123#12) ∧
    decodeTableWord 16 0xC70F = some (.rndVxKK 0x7#4 0x0F#8) := by decide

theorem test_decode_alu :
    decodeTableWord 16 0x8120 = some (.ldVxVy 0x1#4 0x2#4) ∧ decodeTableWord 16 0x8341 = some (.orVxVy 0x3#4 0x4#4) ∧
    decodeTableWord 16 0x8562 = some (.andVxVy 0x5#4 0x6#4) ∧ decodeTableWord 16 0x8783 = some (.xorVxVy 0x7#4 0x8#4) ∧
    decodeTableWord 16 0x89A4 = some (.addVxVy 0x9#4 0xA#4) ∧ decodeTableWord 16 0x8BC5 = some (.subVxVy 0xB#4 0xC#4) ∧
    decodeTableWord 16 0x8DE6 = some (.shrVx 0xD#4 0xE#4) ∧ decodeTableWord 16 0x8F07 = some (.subnVxVy 0xF#4 0x0#4) ∧
    decodeTableWord 16 0x812E = some (.shlVx 0x1#4 0x2#4) := by decide

theorem test_decode_misc :
    decodeTableWord 16 0xD125 = some (.drwVxVyN 0x1#4 0x2#4 0x5#4) ∧ decodeTableWord 16 0xF507 = some (.ldVxDT 0x5#4) ∧
    decodeTableWord 16 0xF615 = some (.ldDTVx 0x6#4) ∧ decodeTableWord 16 0xF70A = some (.ldVxK 0x7#4) ∧
    decodeTableWord 16 0xF81E = some (.addIVx 0x8#4) ∧ decodeTableWord 16 0xF933 = some (.ldBVx 0x9#4) ∧
    decodeTableWord 16 0xFA55 = some (.ldMemVx 0xA#4) ∧ decodeTableWord 16 0xFF65 = some (.ldVxMem 0xF#4) := by decide

/-- T30-33 to T30-57, a few of each family: no row matches. -/
theorem test_decode_refuses_unmatched_words :
    (List.map (decodeTableWord 16)
      [0x0000, 0x00E1, 0x01E0, 0x0FEE, 0x0123, 0x5121, 0x8128, 0x812F, 0x9121, 0xE19F, 0xE1A0, 0xF118, 0xF129, 0xF1FF]).all
      Option.isNone = true := by decide

/-- An instruction needs both its bytes (R50). -/
theorem test_decode_refuses_one_byte : decode [0x00#8] = .error .truncated := rfl

/-- The last column of T30-03, T30-09, T30-19, T30-31, and the word's own spelling. -/
theorem test_spell :
    spell (.jp 0xABC#12) = "JP 0xABC" ∧ spell (.ldVxKK 0#4 0xFF#8) = "LD V0, 0xFF" ∧ spell (.shlVx 1#4 2#4) = "SHL V1" ∧
    spell (.ldMemVx 0xA#4) = "LD [I], VA" ∧ wordText (encode (.ldVxKK 0#4 3#8)) = "6003" := by decide

/-! ### One step of every instruction (Part 2 of 95_test_vectors.md) -/

/-- T40-01. -/
theorem test_cls :
    after { start 0x00E0 [] with fb := [(0, 0xFFFFFFFF#32), (2047, 0xFFFFFFFF#32)] }
      (fun t => (t.fb, t.pc)) = some ([], 0x202#16) := by decide

/-- T40-03, T40-04. -/
theorem test_ret :
    after { start 0x00EE [] with stack := [0x0204#16] } (fun t => (t.pc, t.stack)) = some (0x204#16, []) ∧
    after (start 0x00EE []) (fun t => (t.pc, t.stack)) = some (0x202#16, []) := by decide

/-- T40-07, T40-08. -/
theorem test_jp :
    after (start 0x1ABC []) State.pc = some 0xABC#16 ∧
    after { start 0x1200 [] with dt := 5#8 } (fun t => (t.pc, t.dt)) = some (0x200#16, 4#8) := by decide

/-- T40-12: the sixteenth entry is accepted. -/
theorem test_call_with_room :
    after { start 0x2300 [] with stack := List.replicate 15 0x0204#16 } (fun t => (t.pc, t.stack.getLast?, t.sp)) =
      some (0x300#16, some 0x202#16, 16#16) := by decide

/-- T40-13: the seventeenth is not, and there is no jump. -/
theorem test_call_full :
    after { start 0x2300 [] with stack := List.replicate 16 0x0204#16 } (fun t => (t.pc, t.sp)) =
      some (0x202#16, 16#16) := by decide

/-- T41-01, T41-02. -/
theorem test_seVxKK :
    after (start 0x332A [(3#4, 0x2A#8)]) State.pc = some 0x204#16 ∧
    after (start 0x332A [(3#4, 0x2B#8)]) State.pc = some 0x202#16 := by decide

/-- T41-05, T41-06. -/
theorem test_sneVxKK :
    after (start 0x432A [(3#4, 0x2A#8)]) State.pc = some 0x202#16 ∧ after (start 0x432A []) State.pc = some 0x204#16 := by
  decide

/-- T41-07, T41-08. -/
theorem test_seVxVy :
    after (start 0x5120 [(1#4, 7#8), (2#4, 7#8)]) State.pc = some 0x204#16 ∧
    after (start 0x5120 [(1#4, 7#8), (2#4, 8#8)]) State.pc = some 0x202#16 := by decide

/-- T41-10, T41-11. -/
theorem test_sneVxVy :
    after (start 0x9120 [(1#4, 7#8), (2#4, 8#8)]) State.pc = some 0x204#16 ∧
    after (start 0x9120 [(1#4, 7#8), (2#4, 7#8)]) State.pc = some 0x202#16 := by decide

/-- T42-02. -/
theorem test_ldVxKK : after (start 0x6FAB [(0xF#4, 1#8)]) (fun t => t.reg 0xF#4) = some 0xAB#8 := by decide

/-- T42-05: the sum wraps and VF is not touched. -/
theorem test_addVxKK :
    after (start 0x720A [(2#4, 0xFA#8), (0xF#4, 0x77#8)]) (fun t => (t.reg 2#4, t.reg 0xF#4)) = some (4#8, 0x77#8) := by
  decide

/-- T43-01. -/
theorem test_ldVxVy :
    after (start 0x8120 [(1#4, 0x11#8), (2#4, 0x22#8)]) (fun t => (t.reg 1#4, t.reg 2#4)) = some (0x22#8, 0x22#8) := by
  decide

/-- T43-05. -/
theorem test_orVxVy :
    after (start 0x8121 [(1#4, 0xF0#8), (2#4, 0x0F#8), (0xF#4, 0x5A#8)]) (fun t => (t.reg 1#4, t.reg 0xF#4)) =
      some (0xFF#8, 0x5A#8) := by decide

/-- T43-07. -/
theorem test_andVxVy :
    after (start 0x8122 [(1#4, 0xF0#8), (2#4, 0x3C#8), (0xF#4, 1#8)]) (fun t => (t.reg 1#4, t.reg 0xF#4)) =
      some (0x30#8, 1#8) := by decide

/-- T43-09. -/
theorem test_xorVxVy :
    after (start 0x8123 [(1#4, 0xF0#8), (2#4, 0x3C#8), (0xF#4, 1#8)]) (fun t => (t.reg 1#4, t.reg 0xF#4)) =
      some (0xCC#8, 1#8) := by decide

/-- T43-15, T43-16: the sums 255 and 256. -/
theorem test_addVxVy :
    after (start 0x8124 [(1#4, 0x80#8), (2#4, 0x7F#8), (0xF#4, 1#8)]) (fun t => (t.reg 1#4, t.reg 0xF#4)) =
      some (0xFF#8, 0#8) ∧
    after (start 0x8124 [(1#4, 0x80#8), (2#4, 0x80#8)]) (fun t => (t.reg 1#4, t.reg 0xF#4)) = some (0#8, 1#8) := by
  decide

/-- T43-18, T43-20: the result survives in VF. -/
theorem test_addVxVy_into_vf :
    after (start 0x8F14 [(1#4, 0x20#8), (0xF#4, 0xF0#8)]) (fun t => t.reg 0xF#4) = some 0x10#8 ∧
    after (start 0x8FF4 [(0xF#4, 0x90#8)]) (fun t => t.reg 0xF#4) = some 0x20#8 := by decide

/-- T43-21, T43-22, T43-23. -/
theorem test_subVxVy :
    after (start 0x8125 [(1#4, 0x0A#8), (2#4, 3#8)]) (fun t => (t.reg 1#4, t.reg 0xF#4)) = some (7#8, 1#8) ∧
    after (start 0x8125 [(1#4, 3#8), (2#4, 0x0A#8), (0xF#4, 1#8)]) (fun t => (t.reg 1#4, t.reg 0xF#4)) =
      some (3#8, 0#8) ∧
    after (start 0x8125 [(1#4, 5#8), (2#4, 5#8), (0xF#4, 1#8)]) (fun t => (t.reg 1#4, t.reg 0xF#4)) =
      some (5#8, 0#8) := by decide

/-- T43-28, T43-29, T43-31. -/
theorem test_subVxVy_with_vf :
    after (start 0x8F15 [(1#4, 3#8), (0xF#4, 9#8)]) (fun t => t.reg 0xF#4) = some 6#8 ∧
    after (start 0x8F15 [(1#4, 9#8), (0xF#4, 3#8)]) (fun t => t.reg 0xF#4) = some 0#8 ∧
    after (start 0x81F5 [(1#4, 2#8), (0xF#4, 0x0A#8)]) (fun t => (t.reg 1#4, t.reg 0xF#4)) = some (2#8, 0#8) := by decide

/-- T43-38: Y is ignored. -/
theorem test_shrVx :
    after (start 0x8126 [(1#4, 4#8), (2#4, 0xFF#8), (0xF#4, 1#8)]) (fun t => (t.reg 1#4, t.reg 2#4, t.reg 0xF#4)) =
      some (2#8, 0xFF#8, 0#8) := by decide

/-- T43-40, T43-42. -/
theorem test_subnVxVy :
    after (start 0x8127 [(1#4, 3#8), (2#4, 0x0A#8)]) (fun t => (t.reg 1#4, t.reg 0xF#4)) = some (7#8, 1#8) ∧
    after (start 0x8127 [(1#4, 5#8), (2#4, 5#8), (0xF#4, 1#8)]) (fun t => (t.reg 1#4, t.reg 0xF#4)) =
      some (5#8, 0#8) := by decide

/-- T43-47, T43-48: the flag is bit 0, and bit 7 is lost. -/
theorem test_shlVx :
    after (start 0x810E [(1#4, 0x81#8)]) (fun t => (t.reg 1#4, t.reg 0xF#4)) = some (2#8, 1#8) ∧
    after (start 0x810E [(1#4, 0x80#8), (0xF#4, 1#8)]) (fun t => (t.reg 1#4, t.reg 0xF#4)) = some (0#8, 0#8) := by decide

/-- T44-02. -/
theorem test_ldINNN : after (start 0xAFFF []) State.i = some 0xFFF#16 := by decide

/-- T44-05: no reduction. -/
theorem test_jpV0NNN : after (start 0xBFFF [(0#4, 0xFF#8)]) State.pc = some 0x10FE#16 := by decide

/-- T44-09. -/
theorem test_rndVxKK :
    after ((start 0xC30F []).driveRnd 0xA7#8) (fun t => (t.reg 3#4, t.rndIn)) = some (7#8, []) := by decide

/-- T45-04, T45-05: the start coordinates are reduced. -/
theorem test_drwVxVyN :
    after { (start 0xD011 [(0#4, 0x45#8), (1#4, 0x23#8)]).writeByte 0x300 0x80#8 with i := 0x300#16 }
      (fun t => (t.fb, t.reg 0xF#4)) = some ([(197, 0xFFFFFFFF#32)], 0#8) ∧
    after { (start 0xD011 [(0#4, 0xFF#8), (1#4, 0xFF#8)]).writeByte 0x300 0x80#8 with i := 0x300#16 }
      (fun t => t.fb.map Prod.fst) = some [2047] := by decide

/-- T45-09: a partial collision. -/
theorem test_drwVxVyN_collision :
    after { (start 0xD011 []).writeByte 0x300 0xC0#8 with i := 0x300#16, fb := [(1, 0xFFFFFFFF#32)] }
      (fun t => (t.fb.map Prod.fst, t.reg 0xF#4)) = some ([0], 1#8) := by decide

/-- T46-04: the key number is reduced and any nonzero byte is pressed. -/
theorem test_skpVx :
    after ((start 0xE29E [(2#4, 0x1A#8)]).keyWrite 0xA#4 0x80#8) State.pc = some 0x204#16 ∧
    after (start 0xE29E [(2#4, 5#8)]) State.pc = some 0x202#16 := by decide

/-- T46-05, T46-06. -/
theorem test_sknpVx :
    after (start 0xE2A1 [(2#4, 5#8)]) State.pc = some 0x204#16 ∧
    after ((start 0xE2A1 [(2#4, 5#8)]).keyWrite 5#4 0xFF#8) State.pc = some 0x202#16 := by decide

/-- T47-01: the read comes before the tick. -/
theorem test_ldVxDT :
    after { start 0xF307 [] with dt := 0x10#8 } (fun t => (t.reg 3#4, t.dt)) = some (0x10#8, 0x0F#8) := by decide

/-- T47-04, T47-05: the tick comes after the write. -/
theorem test_ldDTVx :
    after (start 0xF315 [(3#4, 0x3C#8)]) State.dt = some 0x3B#8 ∧
    after { start 0xF315 [] with dt := 5#8 } State.dt = some 0#8 := by decide

/-- T47-09: the lowest pressed key. -/
theorem test_ldVxK_pressed :
    after (((start 0xF50A []).keyWrite 3#4 1#8).keyWrite 9#4 1#8) (fun t => (t.reg 5#4, t.pc)) =
      some (3#8, 0x202#16) := by decide

/-- T47-10: no key. -/
theorem test_ldVxK_waits :
    after { start 0xF50A [(5#4, 0xAA#8)] with dt := 2#8 } (fun t => (t.reg 5#4, t.pc, t.dt)) =
      some (0xAA#8, 0x200#16, 1#8) := by decide

/-- T48-01, T48-02. -/
theorem test_addIVx :
    after { start 0xF11E [(1#4, 5#8)] with i := 0xFFE#16 } State.i = some 0x1003#16 ∧
    after { start 0xF11E [(1#4, 2#8), (0xF#4, 1#8)] with i := 0xFFFF#16 } (fun t => (t.i, t.reg 0xF#4)) =
      some (1#16, 1#8) := by decide

/-- T48-07: the addresses wrap. -/
theorem test_ldBVx :
    after { start 0xF233 [(2#4, 0xFF#8)] with i := 0xFFF#16 }
      (fun t => [t.readByte 0xFFF, t.readByte 0, t.readByte 1, t.readByte 2]) =
      some [2#8, 5#8, 5#8, 0x90#8] := by decide

/-- T48-11: X + 1 bytes are stored, and I is unchanged. -/
theorem test_ldMemVx :
    after { start 0xF155 [(0#4, 0xAA#8), (1#4, 0xBB#8), (2#4, 0xCC#8)] with i := 0x400#16 }
      (fun t => ([t.readByte 0x400, t.readByte 0x401, t.readByte 0x402], t.i)) =
      some ([0xAA#8, 0xBB#8, 0#8], 0x400#16) := by decide

/-- T48-14: glyph 0 is loaded. -/
theorem test_ldVxMem :
    after (start 0xF465 [(5#4, 0x77#8)]) (fun t => (t.v.toList.take 6, t.i)) =
      some ([0xF0#8, 0x90#8, 0x90#8, 0x90#8, 0xF0#8, 0x77#8], 0#16) := by decide

/-- T30-33: an unmatched word. -/
theorem test_unmatched :
    after { start 0x0000 [] with dt := 3#8 } (fun t => (t.pc, t.dt, t.unimpl)) = some (0x202#16, 2#8, true) := by decide

/-- T20-03: the fetch wraps at the end of memory, and pc does not. -/
theorem test_fetch_wraps :
    after { (State.reset.writeByte 0xFFF 0x6A#8).writeByte 0 0x55#8 with pc := 0xFFF#16 }
      (fun t => (t.reg 0xA#4, t.pc)) = some (0x55#8, 0x1001#16) := by decide

/-- 60_exceptions.md R144: a turn of the driver loop shows the keys to one step and then clears them. -/
theorem test_driverTurn_clears_the_keys :
    seen (driverTurn ((Vector.replicate 16 0#8).set 7 1#8) (start 0xF00A [])) (fun t => (t.reg 0#4, t.key 7#4, t.pc)) =
      some (7#8, 0#8, 0x202#16) := by decide

/-! ### States and operands that meet the statements' hypotheses

One theorem for each statement with hypotheses, named after it; each clause has its own state, at a boundary where there is
one. -/

theorem test_meets_ResetGivesEveryElementItsValue :
    ((State.resetWith defaultParams).loadImage [0x60#8] = .ok ((State.resetWith defaultParams).writeByte 0x200 0x60#8)) ∧
    State.reset.readByte 79 = 0x80#8 ∧ State.reset.readByte 80 = 0#8 ∧
    (State.reset.writeByte 0x200 0x60#8).readByte 0x201 = 0#8 ∧
    ((start 0x6003 []).hostReset).readByte 0x200 = 0#8 := ⟨rfl, by decide, by decide, by decide, by decide⟩

theorem test_meets_GlyphZeroStandsAtAddressZero : Config.Params.valid ⟨65535, 1#32, defaultFont⟩ = true := by decide

theorem test_meets_MemoryAccessWrapsAndWritesOneByte :
    0xFFF % 4096 ≠ 0x1000 % 4096 ∧ (State.reset.writeByte 0xFFF 1#8).readByte 0x1000 = 0xF0#8 := by decide

theorem test_meets_CanonicalFormIsUnique :
    Memory.wf defaultParams [(0, 1#8), (0xFFF, 2#8)] = true ∧
    Memory.wf defaultParams (memWrite defaultParams [(0, 1#8), (0xFFF, 2#8)] 0x1000 1#8) = true ∧
    (∀ a : Nat, a < 4096 → memRead defaultParams [(0, 1#8), (0xFFF, 2#8)] a =
      memRead defaultParams (memWrite defaultParams [(0, 1#8), (0xFFF, 2#8)] 0x1000 1#8) a) ∧
    Framebuffer.wf [(0, 1#32), (2047, 2#32)] = true ∧
    (∀ k : Nat, k < 2048 → fbRead [(0, 1#32), (2047, 2#32)] k = fbRead (fbWrite [(2047, 2#32)] 0 1#32) k) :=
  ⟨by decide, by decide, fun _ _ => rfl, by decide, fun _ _ => rfl⟩

theorem test_meets_FetchIsBigEndian :
    State.reset.loadImage [0x12#8, 0x34#8] = .ok (State.reset.storeBytes 0x200 [0x12#8, 0x34#8]) ∧
    State.reset.pc = 0x200#16 ∧ (State.reset.storeBytes 0x200 [0x12#8, 0x34#8]).fetchWord = 0x1234#16 :=
  ⟨rfl, by decide, by decide⟩

theorem test_meets_LoadPlacesTheImageOrRefusesIt :
    (List.replicate 0xE00 0#8).length ≤ 0xE00 ∧ 0xE00 < (List.replicate 0xE01 0#8).length := by
  simp only [List.length_replicate]
  decide

/-- T20-06: F055 stores over the next word's first byte; and F055 with I far away leaves the next word alone. F233 with I at
0x201 stores over the executed word's second byte and over both bytes of the next word. -/
theorem test_meets_NextFetchSeesTheStore :
    let s : State := { start 0xF055 [(0#4, 0x12#8)] with i := 0x202#16 }
    let far : State := { start 0xF055 [(0#4, 0x12#8)] with i := 0x400#16 }
    let d : State := { start 0xF233 [(2#4, 0x9C#8)] with i := 0x201#16 }
    s.current = some (.ldMemVx 0#4) ∧ step s = .next (stepped s) ∧ (stepped s).fetchWord = 0x1200#16 ∧
      far.current = some (.ldMemVx 0#4) ∧ step far = .next (stepped far) ∧ (stepped far).fetchWord = 0x0000#16 ∧
      d.current = some (.ldBVx 2#4) ∧ step d = .next (stepped d) ∧ (stepped d).fetchWord = 0x0506#16 :=
  ⟨by decide, step_stepped (by decide), by decide, by decide, step_stepped (by decide), by decide, by decide,
    step_stepped (by decide), by decide⟩

theorem test_meets_EncodeOfDecodeIsTheWord : decodeWord 0x812E#16 = .ok (.shlVx 1#4 2#4) := rfl

/-- The first and the last row, each met; and a word that no row matches. -/
theorem test_meets_DecoderFollowsTheDispatchTable :
    0 < dispatchTable.length ∧ 31 < dispatchTable.length ∧ rowMatches 0x00E0#16 dispatchTable[0] = true ∧
    rowMatches 0xFF65#16 dispatchTable[31] = true ∧ (∀ row ∈ dispatchTable, rowMatches 0x5121#16 row = false) :=
  ⟨by decide, by decide, by decide, by decide, by simp [dispatchTable, rowMatches]⟩

theorem test_meets_DispatchRowsAreExclusive :
    rowMatches 0x00EE#16 dispatchTable[1] = true ∧ rowMatches 0x8006#16 dispatchTable[16] = true ∧
    (0xF00F#16, 0x800E#16) ∈ dispatchTable ∧ rowSize (0xF00F#16, 0x800E#16) = 256 := by decide

theorem test_meets_StepRunsTheDecodedInstruction :
    decode [(start 0xFF65 []).readByte (start 0xFF65 []).pc.toNat,
      (start 0xFF65 []).readByte ((start 0xFF65 []).pc.toNat + 1)] = .ok (.ldVxMem 0xF#4, []) := rfl

theorem test_meets_UnmatchedWordDoesNothing :
    State.reset.fetchWord = 0x0000#16 ∧ decodeWord 0x0000#16 = .error (.unmatched 0x0000#16) := ⟨by decide, rfl⟩

/-- A step that is no FX15, with the timer at 0 and at 1; and FX15 with a register of 0 and of 1. -/
theorem test_meets_TimerTicksOnceInEveryStep :
    (∀ x, State.reset.current ≠ some (.ldDTVx x)) ∧
    after { State.reset with dt := 0#8 } State.dt = some 0#8 ∧ after { State.reset with dt := 1#8 } State.dt = some 0#8 ∧
    (start 0xF315 []).current = some (.ldDTVx 3#4) ∧ after (start 0xF315 []) State.dt = some 0#8 ∧
    after (start 0xF315 [(3#4, 1#8)]) State.dt = some 0#8 := by decide

theorem test_meets_OnlyStoresChangeMemory :
    step (start 0xFF65 []) = .next (stepped (start 0xFF65 [])) ∧
    (∀ x, (start 0xFF65 []).current ≠ some (.ldBVx x)) ∧ (∀ x, (start 0xFF65 []).current ≠ some (.ldMemVx x)) :=
  ⟨step_stepped (by decide), by decide, by decide⟩

theorem test_meets_StepNeverWritesTheKeypad :
    step (start 0xF50A []) = .next (stepped (start 0xF50A [])) := step_stepped (by decide)

theorem test_meets_OnlyClsAndDrwChangeTheFramebuffer :
    step (start 0xFF65 []) = .next (stepped (start 0xFF65 [])) ∧ (start 0xFF65 []).current ≠ some .cls ∧
    (∀ x y n, (start 0xFF65 []).current ≠ some (.drwVxVyN x y n)) := by
  have h : (start 0xFF65 []).current = some (.ldVxMem 0xF#4) := by decide
  exact ⟨step_stepped (by decide), by simp [h], by simp [h]⟩

theorem test_meets_OnlyListedRegistersAreWritten :
    step (start 0x8124 [(1#4, 0xFF#8), (2#4, 2#8)]) = .next (stepped (start 0x8124 [(1#4, 0xFF#8), (2#4, 2#8)])) ∧
    (stepped (start 0x8124 [(1#4, 0xFF#8), (2#4, 2#8)])).reg regF ≠
      (start 0x8124 [(1#4, 0xFF#8), (2#4, 2#8)]).reg regF := ⟨step_stepped (by decide), by decide⟩

/-- A taken CALL and a taken RET. -/
theorem test_meets_OnlyCallAndRetMoveTheStack :
    step (start 0x2300 []) = .next (stepped (start 0x2300 [])) ∧
    (stepped (start 0x2300 [])).stack ≠ (start 0x2300 []).stack ∧
    after { start 0x00EE [] with stack := [0x204#16] } State.stack = some [] :=
  ⟨step_stepped (by decide), by decide, by decide⟩

theorem test_meets_OnlyTwoInstructionsWriteI :
    step (start 0xA123 []) = .next (stepped (start 0xA123 [])) ∧ (stepped (start 0xA123 [])).i ≠ (start 0xA123 []).i ∧
    after (start 0xF11E [(1#4, 5#8)]) State.i ≠ some (start 0xF11E [(1#4, 5#8)]).i :=
  ⟨step_stepped (by decide), by decide, by decide⟩

/-- An instruction that is no writer of pc, no instruction, a skip and a key wait. -/
theorem test_meets_OnlyListedInstructionsRedirectPc :
    step (start 0x00E0 []) = .next (stepped (start 0x00E0 [])) ∧ (start 0x00E0 []).current = some .cls ∧
    Instr.mayWritePc .cls = false ∧ State.reset.current = none ∧ (start 0x3A7F []).current = some (.seVxKK 0xA#4 0x7F#8) ∧
    (start 0xF50A []).current = some (.ldVxK 5#4) :=
  ⟨step_stepped (by decide), by decide, by decide, by decide, by decide, by decide⟩

/-- A step without CXKK, CXKK with a driven byte, and CXKK without one. -/
theorem test_meets_OnlyRndDrawsARandomByte :
    (∀ x kk, (start 0x00E0 []).current ≠ some (.rndVxKK x kk)) ∧
    ((start 0xC30F []).driveRnd 0xA7#8).current = some (.rndVxKK 3#4 0x0F#8) ∧
    after ((start 0xC30F []).driveRnd 0xA7#8) (fun t => (t.rndIn, t.draws)) = some ([], 0) ∧
    after (start 0xC30F []) (fun t => (t.rndIn, t.draws)) = some ([], 1) := by
  have h : (start 0x00E0 []).current = some .cls := by decide
  exact ⟨by simp [h], by decide, by decide, by decide⟩

/-- A stack of one entry, a full one, and an empty one. -/
theorem test_meets_RetPopsIntoPc :
    State.stack { start 0x00EE [] with stack := [0x204#16] } = [] ++ [0x204#16] ∧
    State.stack { start 0x00EE [] with stack := List.replicate 16 0x204#16 } =
      List.replicate 15 0x204#16 ++ [0x204#16] ∧
    (start 0x00EE []).current = some .ret ∧ (start 0x00EE []).stack = [] ∧
    step (start 0x00EE []) = .next (stepped (start 0x00EE [])) :=
  ⟨rfl, rfl, by decide, by decide, step_stepped (by decide)⟩

/-- Fifteen entries and sixteen. -/
theorem test_meets_CallPushesPcAndJumps :
    (List.replicate 15 0x204#16).length < State.reset.params.stackDepth ∧
    State.reset.params.stackDepth ≤ (List.replicate 16 0x204#16).length := by decide

/-- Equal and not, and a pc that wraps. -/
theorem test_meets_SkipsOnAnImmediate :
    (start 0x332A [(3#4, 0x2A#8)]).reg 3#4 = 0x2A#8 ∧ (start 0x332A [(3#4, 0x2B#8)]).reg 3#4 ≠ 0x2A#8 ∧
    ((0xFFFE#16).toNat + 2) % 65536 = 0 := by decide

theorem test_meets_SkipsOnTwoRegisters :
    (start 0x5120 []).reg 1#4 = (start 0x5120 []).reg 2#4 ∧
    (start 0x5120 [(1#4, 7#8)]).reg 1#4 ≠ (start 0x5120 [(1#4, 7#8)]).reg 2#4 := by decide

/-- Key number 15 from 0x0F and from 0xFF, pressed and not. -/
theorem test_meets_SkipsOnAKey :
    (0xF#4).toNat = ((start 0xE29E [(2#4, 0x0F#8)]).reg 2#4).toNat % 16 ∧
    (0xF#4).toNat = ((start 0xE29E [(2#4, 0xFF#8)]).reg 2#4).toNat % 16 ∧
    ((start 0xE29E [(2#4, 0xFF#8)]).keyWrite 0xF#4 1#8).key 0xF#4 ≠ 0#8 ∧
    (start 0xE29E [(2#4, 0xFF#8)]).key 0xF#4 = 0#8 := by decide

theorem test_meets_AddRecordsTheCarry : (1#4 : Reg) ≠ regF := by decide

/-- The minuend greater by one, equal, and less, with X not 0xF and with X = 0xF. -/
theorem test_meets_SubtractionNeverWraps :
    ((start 0x8125 [(1#4, 4#8), (2#4, 3#8)]).reg 2#4).toNat < ((start 0x8125 [(1#4, 4#8), (2#4, 3#8)]).reg 1#4).toNat ∧
    ((start 0x8125 []).reg 1#4).toNat ≤ ((start 0x8125 []).reg 2#4).toNat ∧
    ((start 0x8F15 [(1#4, 3#8)]).reg regF).toNat < ((start 0x8F15 [(1#4, 3#8)]).reg 1#4).toNat ∧ (1#4 : Reg) ≠ regF := by
  decide

theorem test_meets_ShiftsReportBitZero : (1#4 : Reg) ≠ regF := by decide

/-- A byte driven, and none. -/
theorem test_meets_RndMasksTheDrawnByte :
    ((start 0xC30F []).driveRnd 0xA7#8).rndIn = 0xA7#8 :: [] ∧ (start 0xC30F []).rndIn = [] := by decide

/-- Glyph 0 at (0, 0) covers cell 0, and with N = 0 nothing does; the screen dark, and cell 0 lit. -/
theorem test_meets_DrawTogglesExactlyTheCoveredCells :
    (start 0xD015 []).covered 0#4 1#4 5#4 0 ∧ ¬ (start 0xD015 []).covered 0#4 1#4 0#4 0 ∧
    (∀ k, (start 0xD015 []).pixel k = 0#32) ∧
    State.pixel { start 0xD015 [] with fb := [(0, 0xFFFFFFFF#32)] } 0 ≠ 0#32 :=
  ⟨⟨0, 0, by decide, by decide, by decide, by decide⟩, fun ⟨_, _, h, _⟩ => absurd h (by simp), fun _ => rfl, by decide⟩

theorem test_meets_DrawingTwiceRestoresTheScreen :
    (start 0xD015 []).inv = true ∧
    ∃ t w, exec (.drwVxVyN 0#4 1#4 5#4) (start 0xD015 []) = .next t ∧ t.i = (start 0xD015 []).i ∧
      t.params = (start 0xD015 []).params ∧ t.reg 0#4 = (start 0xD015 []).reg 0#4 ∧
      t.reg 1#4 = (start 0xD015 []).reg 1#4 ∧
      (∀ r : Nat, r < (5#4).toNat →
        t.readByte ((start 0xD015 []).i.toNat + r) = (start 0xD015 []).readByte ((start 0xD015 []).i.toNat + r)) ∧
      exec (.drwVxVyN 0#4 1#4 5#4) t = .next w :=
  ⟨by decide, _, _, rfl, rfl, rfl, by decide, by decide, fun _ _ => rfl, rfl⟩

/-- Two machines that mark a lit cell with different words, cell 0 lit in both. -/
theorem test_meets_PixelWordDoesNotMatter :
    let s : State := { start 0xD015 [] with fb := [(0, 0xFFFFFFFF#32)] }
    let t : State := { start 0xD015 [] with
      fb := [(0, 1#32)]
      params := { defaultParams with pixelOn := 1#32 } }
    s.inv = true ∧ t.inv = true ∧ SameButPixelWord s t ∧ step s = .next (stepped s) := by
  refine ⟨by decide, by decide, ⟨rfl, fun k => ?_⟩, step_stepped (by decide)⟩
  rcases Nat.eq_zero_or_pos k with rfl | h
  · decide
  · have : ¬ 0 = k := by omega
    simp [State.pixel, fbRead, cellRead, darkCell, this]

theorem test_meets_LdReadsTheTimer :
    (start 0xF307 []).current = some (.ldVxDT 3#4) ∧ step (start 0xF307 []) = .next (stepped (start 0xF307 [])) :=
  ⟨by decide, step_stepped (by decide)⟩

theorem test_meets_LdWritesTheTimer :
    (start 0xF315 []).current = some (.ldDTVx 3#4) ∧ step (start 0xF315 []) = .next (stepped (start 0xF315 [])) :=
  ⟨by decide, step_stepped (by decide)⟩

/-- After a write of 3 (an FX07 follows): j = 1, in which FX07 reads 2, and j = 2 with a key written in between. -/
theorem test_meets_TimerCountsStepsSinceTheWrite :
    let s := (start 0xF315 [(3#4, 3#8)]).storeBytes 0x202 [0xF4#8, 0x07#8]
    s.current = some (.ldDTVx 3#4) ∧ step s = .next (stepped s) ∧ (stepped s).current = some (.ldVxDT 4#4) ∧
    HostedRun State.leavesTimer (1 - 1) (stepped s) (stepped s) ∧
    HostedRun State.leavesTimer (2 - 1) (stepped s) (stepped ((stepped s).keyWrite 7#4 1#8)) ∧
    (stepped (stepped s)).reg 4#4 = 2#8 ∧ (stepped ((stepped s).keyWrite 7#4 1#8)).dt = 1#8 := by
  refine ⟨by decide, step_stepped (by decide), by decide, .start _, ?_, by decide, by decide⟩
  refine .step _ _ _ _ (.keyWrite _ _ _ 7#4 1#8 (.start _)) (fun x => ?_) (step_stepped (by decide))
  revert x
  decide

/-- The least pressed key is 15, is 0, and is none. -/
theorem test_meets_KeyWaitTakesTheLeastPressedKey :
    ((start 0xF50A []).keyWrite 0xF#4 2#8).key 0xF#4 ≠ 0#8 ∧
    (∀ j : BitVec 4, j.toNat < (0xF#4).toNat → ((start 0xF50A []).keyWrite 0xF#4 2#8).key j = 0#8) ∧
    ((start 0xF50A []).keyWrite 0#4 1#8).key 0#4 ≠ 0#8 ∧ (∀ k : BitVec 4, (start 0xF50A []).key k = 0#8) := by decide

theorem test_meets_WaitingStepChangesOnlyTheTimer :
    (start 0xF50A []).current = some (.ldVxK 5#4) ∧ (∀ k : BitVec 4, (start 0xF50A []).key k = 0#8) := by decide

/-- A self-loop at 0x200 and one at the last address, and what is none: the same word seen from 0x1200. -/
theorem test_meets_SelfLoopChangesOnlyTheTimer :
    (start 0x1200 []).finished = true ∧ (start 0x1200 []).current = some (.jp 0x200#12) ∧
    (start 0x1200 []).pc.toNat = (0x200#12).toNat ∧
    ((State.reset.writeByte 0xFFF 0x1F#8).writeByte 0 0xFF#8).finished = false ∧
    State.finished { (State.reset.writeByte 0xFFF 0x1F#8).writeByte 0 0xFF#8 with pc := 0xFFF#16 } = true ∧
    State.finished { start 0x1200 [] with pc := 0x1200#16 } = false := by decide

/-- No step, and a step with a key written and a random byte driven around it. -/
theorem test_meets_FinishedProgramStaysFinished :
    (start 0x1200 []).finished = true ∧ HostedRun (fun _ => True) 0 (start 0x1200 []) (start 0x1200 []) ∧
    HostedRun (fun _ => True) 1 (start 0x1200 []) ((stepped ((start 0x1200 []).keyWrite 7#4 1#8)).driveRnd 5#8) :=
  ⟨by decide, .start _,
    .driveRnd _ _ _ 5#8 (.step _ _ _ _ (.keyWrite _ _ _ 7#4 1#8 (.start _)) trivial (step_stepped (by decide)))⟩

/-- Of the block transfers: the last register moved, and the first one not moved. -/
theorem test_meets_BlockLoadReadsTheRegisters :
    (0xF#4).toNat ≤ (0xF#4).toNat ∧ (0#4).toNat ≤ (0#4).toNat ∧ (0#4).toNat < (1#4).toNat := by decide

theorem test_meets_BlockStoreWritesTheRegisters : (0xF#4).toNat ≤ (0xF#4).toNat ∧ (0#4).toNat ≤ (0#4).toNat := by decide

theorem test_meets_ResetMeetsTheInvariant : defaultParams.valid = true ∧ State.reset.inv = true := by decide

/-- A full stack, a lit cell and a written byte. -/
theorem test_meets_StepKeepsTheInvariant :
    let s : State := { start 0xD015 [] with stack := List.replicate 16 0x204#16, fb := [(2047, 0xFFFFFFFF#32)] }
    s.inv = true ∧ step s = .next (stepped s) := ⟨by decide, step_stepped (by decide)⟩

/-- Power-up, a load, a key and a step. -/
theorem test_meets_ReachableStatesMeetTheInvariant :
    Reachable .running (stepped (((State.resetWith defaultParams).loadByte 0x200#12 0x60#8).keyWrite 7#4 1#8)) :=
  .step _ _ _ (.keyWrite _ _ _ _ (.load _ _ _ (.powerUp _ (by decide)))) (step_stepped (by decide))

/-- T40-16. -/
theorem test_meets_CallThenRetComesBack :
    let s := (start 0x2204 []).storeBytes 0x204 [0x00#8, 0xEE#8]
    s.current = some (.call 0x204#12) ∧ s.stack.length < s.params.stackDepth ∧ step s = .next (stepped s) ∧
    (stepped s).current = some .ret ∧ step (stepped s) = .next (stepped (stepped s)) ∧
    (stepped (stepped s)).pc = 0x202#16 :=
  ⟨by decide, by decide, step_stepped (by decide), by decide, step_stepped (by decide), by decide⟩

end Sys2Proof.Tests
end

section
/-! PROOFS. O46: a step from two states that differ in PIXEL_ON and in the word lit cells hold (00_scope.md R4, D13). Every
instruction but 00E0 and DXYN commutes with a replacement of the framebuffer and of PIXEL_ON; 00E0 darkens every cell of both
screens; DXYN toggles the same distinct cells of both. -/

namespace Sys2Proof.Machine

/-! ### Another screen and another word for a lit cell -/

section
variable (s : State) (fb : Framebuffer) (on : Pixel)

/-- The same machine with another framebuffer and another PIXEL_ON. -/
def State.withPixels : State := { s with fb := fb, params := { s.params with pixelOn := on } }

@[simp] theorem State.withPixels_fb : (s.withPixels fb on).fb = fb := rfl
@[simp] theorem State.withPixels_pixelOn : (s.withPixels fb on).params.pixelOn = on := rfl
@[simp] theorem current_withPixels : (s.withPixels fb on).current = s.current := rfl

theorem subtractInto_withPixels (x : Reg) (a b : Byte) :
    (s.withPixels fb on).subtractInto x a b = (s.subtractInto x a b).withPixels fb on := by
  unfold State.subtractInto
  split <;> rfl

theorem skipIf_withPixels (c : Bool) : (s.withPixels fb on).skipIf c = (s.skipIf c).withPixels fb on := by
  cases c <;> rfl

theorem consumeRnd_withPixels : (s.withPixels fb on).consumeRnd = s.consumeRnd.withPixels fb on := by
  unfold State.consumeRnd
  cases h : s.rndIn <;> simp [State.withPixels, h]

theorem storeBytes_withPixels (a : Nat) (bs : List Byte) :
    (s.withPixels fb on).storeBytes a bs = (s.storeBytes a bs).withPixels fb on := by
  induction bs generalizing s a with
  | nil => rfl
  | cons b bs ih => exact ih (s.writeByte a b) (a + 1)

end

/-- An instruction that neither clears nor draws does the same on every screen, and leaves the screen as it is. -/
theorem exec_withPixels {i : Instr} {s u : State} (fb : Framebuffer) (on : Pixel) (hcls : i ≠ .cls)
    (hdrw : ∀ x y n, i ≠ .drwVxVyN x y n) (h : exec i s = .next u) :
    exec i (s.withPixels fb on) = .next (u.withPixels fb on) ∧ u.fb = s.fb := by
  cases i
  case cls => exact absurd rfl hcls
  case drwVxVyN x y n => exact absurd rfl (hdrw x y n)
  case ret =>
    rcases exec_ret_cases h with ⟨hs, rfl⟩ | ⟨below, top, hs, rfl⟩
    · exact ⟨exec_ret_empty _ hs, rfl⟩
    · exact ⟨exec_ret_pop _ below top hs, rfl⟩
  case call =>
    rcases exec_call_cases h with ⟨hs, rfl⟩ | ⟨hs, rfl⟩
    · exact ⟨exec_call_full _ _ hs, rfl⟩
    · exact ⟨exec_call_room _ _ hs, rfl⟩
  case ldVxK =>
    rcases exec_ldVxK_cases h with ⟨hk, rfl⟩ | ⟨k, hk, rfl⟩
    · exact ⟨exec_ldVxK_none _ _ hk, rfl⟩
    · exact ⟨exec_ldVxK_pressed _ _ k hk, rfl⟩
  all_goals cases h
  case seVxKK | sneVxKK | seVxVy | sneVxVy | skpVx | sknpVx =>
    exact ⟨congrArg _ (skipIf_withPixels ..), State.skipIf_fb ..⟩
  case subVxVy | subnVxVy => exact ⟨congrArg _ (subtractInto_withPixels ..), State.subtractInto_fb ..⟩
  case ldBVx | ldMemVx => exact ⟨congrArg _ (storeBytes_withPixels ..), State.storeBytes_fb ..⟩
  case rndVxKK =>
    rw [exec_rndVxKK, consumeRnd_withPixels]
    exact ⟨rfl, State.consumeRnd_fb _⟩
  -- What is left writes registers, pc, I or the timer in one update without a condition.
  all_goals exact ⟨rfl, rfl⟩

/-! ### Two screens with the same cells lit -/

/-- The same cells are lit in two framebuffers. -/
def LitAlike (fb fb' : Framebuffer) : Prop := ∀ k : Nat, fbRead fb' k = 0#32 ↔ fbRead fb k = 0#32

/-- Every cell is dark or holds `on`, which is not the dark word. -/
def TwoToned (on : Pixel) (fb : Framebuffer) : Prop := on ≠ 0#32 ∧ ∀ k : Nat, fbRead fb k = 0#32 ∨ fbRead fb k = on

theorem twoToned_of_inv {s : State} (h : s.inv = true) : TwoToned s.params.pixelOn s.fb := by
  obtain ⟨hvalid, -, hpixels, -⟩ := (inv_iff s).1 h
  exact ⟨((valid_iff _).1 hvalid).1, pixel_of_pixelsOk hpixels⟩

section
variable {fb fb' : Framebuffer} {on on' : Pixel} {s t u : State}

/-- On a two-toned screen toggling a cell lights it exactly when it was dark. -/
theorem TwoToned.xor_eq_zero_iff (h : TwoToned on fb) (k : Nat) : fbRead fb k ^^^ on = 0#32 ↔ ¬ fbRead fb k = 0#32 := by
  obtain ⟨hon, hcells⟩ := h
  rcases hcells k with hk | hk <;> simp [hk, hon]

theorem LitAlike.after_toggleCells (h : LitAlike fb fb') (hfb : TwoToned on fb) (hfb' : TwoToned on' fb') {ks : List Nat}
    (hn : ks.Nodup) (hit : Bool) :
    LitAlike (toggleCells on ks (fb, hit)).1 (toggleCells on' ks (fb', hit)).1 := by
  intro k
  by_cases hk : k ∈ ks
  · rw [toggleCells_of_mem _ _ _ _ _ hn hk, toggleCells_of_mem _ _ _ _ _ hn hk, hfb.xor_eq_zero_iff,
      hfb'.xor_eq_zero_iff, h k]
  · rw [toggleCells_of_not_mem _ _ _ _ _ hk, toggleCells_of_not_mem _ _ _ _ _ hk, h k]

/-- Where the same cells are lit, toggling distinct cells reports the same collision. -/
theorem LitAlike.toggleCells_hit (h : LitAlike fb fb') {ks : List Nat} (hn : ks.Nodup) (hit : Bool) :
    (toggleCells on' ks (fb', hit)).2 = (toggleCells on ks (fb, hit)).2 := by
  simp only [Machine.toggleCells_hit _ _ _ _ hn, ne_eq, h _]

theorem sameButPixelWord_iff : SameButPixelWord s t ↔ ∃ fb on, t = s.withPixels fb on ∧ LitAlike s.fb fb :=
  ⟨fun ⟨ht, hlit⟩ => ⟨t.fb, t.params.pixelOn, ht, hlit⟩, by rintro ⟨fb, on, rfl, hlit⟩; exact ⟨rfl, hlit⟩⟩

theorem LitAlike.sameButPixelWord (h : LitAlike s.fb fb) : SameButPixelWord s (s.withPixels fb on) :=
  sameButPixelWord_iff.2 ⟨fb, on, rfl, h⟩

/-- Drawing distinct cells on two screens with the same cells lit. -/
theorem drawCells_withPixels (h : LitAlike s.fb fb) {ks : List Nat} (hn : ks.Nodup) :
    (s.withPixels fb on).drawCells ks = (s.drawCells ks).withPixels (toggleCells on ks (fb, false)).1 on := by
  have hflag := h.toggleCells_hit (on := s.params.pixelOn) (on' := on) hn false
  simp only [State.drawCells, State.withPixels_fb, State.withPixels_pixelOn, hflag]
  rfl

theorem drawCells_sameButPixelWord (h : LitAlike s.fb fb) (hs : TwoToned s.params.pixelOn s.fb) (ht : TwoToned on fb)
    {ks : List Nat} (hn : ks.Nodup) : SameButPixelWord (s.drawCells ks) ((s.withPixels fb on).drawCells ks) := by
  rw [drawCells_withPixels h hn]
  exact (h.after_toggleCells hs ht hn false).sameButPixelWord

/-! ### The step -/

/-- Every instruction keeps the relation, on two screens whose lit cells hold one word each. -/
theorem exec_sameButPixelWord {i : Instr} (hs : TwoToned s.params.pixelOn s.fb) (ht : TwoToned on fb)
    (h : LitAlike s.fb fb) (hu : exec i s = .next u) :
    ∃ w, exec i (s.withPixels fb on) = .next w ∧ SameButPixelWord u w := by
  by_cases hcls : i = .cls
  · subst hcls
    cases hu
    exact ⟨_, rfl, rfl, fun _ => Iff.rfl⟩
  by_cases hdrw : ∃ x y n, i = .drwVxVyN x y n
  · obtain ⟨x, y, n, rfl⟩ := hdrw
    cases hu
    exact ⟨_, rfl, drawCells_sameButPixelWord h hs ht (nodup_spriteCells _ _ _ _ _ (by omega))⟩
  · obtain ⟨hw, hfb⟩ := exec_withPixels fb on hcls (fun x y n e => hdrw ⟨x, y, n, e⟩) hu
    exact ⟨_, hw, LitAlike.sameButPixelWord (hfb ▸ h)⟩

theorem SameButPixelWord.tick (h : SameButPixelWord s t) : SameButPixelWord s.tick t.tick := by
  obtain ⟨fb, on, rfl, hlit⟩ := sameButPixelWord_iff.1 h
  exact sameButPixelWord_iff.2 ⟨fb, on, rfl, hlit⟩

end

/-- Settles O46: the pre-increment, the instruction at pc and the tick each keep the relation. -/
theorem pixelWordDoesNotMatter : Obligations.PixelWordDoesNotMatter := by
  intro s t s' hs ht h hstep
  obtain ⟨fb, on, rfl, hlit⟩ := sameButPixelWord_iff.1 h
  rcases step_next_cases hstep with ⟨i, u, hi, hu, rfl⟩ | ⟨hi, rfl⟩
  · obtain ⟨w, hw, huw⟩ :=
      exec_sameButPixelWord (s := s.begin) (fb := fb) (on := on) (twoToned_of_inv hs) (twoToned_of_inv ht) hlit hu
    have hcurrent := (current_withPixels s fb on).trans hi
    exact ⟨w.tick, (step_of_current hcurrent).trans (finishStep_eq_next.2 ⟨w, hw, rfl⟩), huw.tick⟩
  · exact ⟨_, step_of_no_current ((current_withPixels ..).trans hi), rfl, hlit⟩

end Sys2Proof.Machine
end

section
/-! PROOFS. What an instruction can do to the state, said once: one case for each element of 10_state.md R11 to R22 that an
instruction may write. The frames of the elements and the invariant of R27 are read off from these cases. -/

namespace Sys2Proof.Machine

/-- `Effect s i u`: from s the instruction i answers u. The cases follow the writers that 10_state.md lists for each element
of the state; the keypad and the parameters have none. -/
inductive Effect (s : State) : Instr → State → Prop where
  /-- R11, R12: general registers that the instruction lists. -/
  | regs (i : Instr) (v : Vector Byte 16)
      (h : ∀ r : Reg, i.mayWrite r = false → { s with v := v }.reg r = s.reg r) : Effect s i { s with v := v }
  /-- R13: ANNN. -/
  | ldINNN (nnn : Addr12) : Effect s (.ldINNN nnn) { s with i := addrWord nnn }
  /-- R13: FX1E. -/
  | addIVx (x : Reg) : Effect s (.addIVx x) { s with i := s.i + byteWord (s.reg x) }
  /-- R14: a jump, a skip, the key wait; an ignored CALL or RET leaves pc as it is. -/
  | pc (i : Instr) (w : Word) (h : i.mayWritePc = true) : Effect s i (s.jump w)
  /-- R15, R16: a CALL that finds room. -/
  | call (nnn : Addr12) (h : s.stack.length < s.params.stackDepth) :
      Effect s (.call nnn) ((s.push s.pc).jump (addrWord nnn))
  /-- R15, R16: a RET that finds an address. -/
  | ret (below : List Word) (top : Word) (h : s.stack = below ++ [top]) : Effect s .ret (s.pop.jump top)
  /-- R17: FX15. -/
  | ldDTVx (x : Reg) : Effect s (.ldDTVx x) { s with dt := s.reg x }
  /-- R18: 00E0. -/
  | cls : Effect s .cls { s with fb := [] }
  /-- R18: DXYN toggles cells of the framebuffer and writes VF. -/
  | drwVxVyN (x y : Reg) (n : Nibble) (cells : List Nat) (h : ∀ k ∈ cells, k < Config.fbCells) :
      Effect s (.drwVxVyN x y n) (s.drawCells cells)
  /-- R20: the two stores. -/
  | store (i : Instr) (a : Nat) (bs : List Byte) (h : ∃ x, i = .ldBVx x ∨ i = .ldMemVx x) : Effect s i (s.storeBytes a bs)
  /-- R22: CXKK. -/
  | rndVxKK (x : Reg) (kk b : Byte) : Effect s (.rndVxKK x kk) (s.consumeRnd.setReg x b)

section
variable {s u : State} {i : Instr}

/-! ### Every instruction is one of the cases -/

theorem skipIf_eq_jump (s : State) (c : Bool) : s.skipIf c = s.jump (if c then s.pc + 2#16 else s.pc) := by
  cases c <;> rfl

theorem subtractInto_eq (s : State) (x : Reg) (a b : Byte) :
    s.subtractInto x a b = { s with v := (s.subtractInto x a b).v } := by
  unfold State.subtractInto
  split <;> rfl

theorem reg_subtractInto_of_ne (a b : Byte) {x r : Reg} (hx : r ≠ x) (hf : r ≠ regF) :
    (s.subtractInto x a b).reg r = s.reg r := by
  simp [reg_subtractInto, hx, hf]

/-- A write of registers only is one of the cases. -/
theorem Effect.of_regs (hu : u = { s with v := u.v }) (h : ∀ r : Reg, i.mayWrite r = false → u.reg r = s.reg r) :
    Effect s i u := by
  rw [hu] at h ⊢
  exact .regs i _ h

/-- A skip that the condition c decides is one of the cases. -/
theorem Effect.of_skipIf (c : Bool) (h : i.mayWritePc = true) : Effect s i (s.skipIf c) :=
  skipIf_eq_jump s c ▸ .pc i _ h

/-- A write of the listed register X is one of the cases. -/
theorem Effect.of_setReg {x : Reg} (b : Byte) (h : ∀ r, i.mayWrite r = decide (r = x)) : Effect s i (s.setReg x b) :=
  .of_regs rfl fun r hr => by
    have hx : r ≠ x := by simpa [h] using hr
    rw [reg_setReg, if_neg hx]

/-- All that an instruction can do. -/
theorem effect_of_exec (h : exec i s = .next u) : Effect s i u := by
  cases i
  case ret =>
    rcases exec_ret_cases h with ⟨-, rfl⟩ | ⟨below, top, hs, rfl⟩
    · exact .pc _ u.pc rfl
    · exact .ret below top hs
  case call nnn =>
    rcases exec_call_cases h with ⟨-, rfl⟩ | ⟨hs, rfl⟩
    · exact .pc _ u.pc rfl
    · exact .call nnn hs
  case ldVxK =>
    rcases exec_ldVxK_cases h with ⟨-, rfl⟩ | ⟨k, -, rfl⟩
    · exact .pc _ _ rfl
    · exact .of_setReg _ fun _ => rfl
  all_goals cases h
  case jp | jpV0NNN => exact .pc _ _ rfl
  case seVxKK | sneVxKK | seVxVy | sneVxVy | skpVx | sknpVx => exact .of_skipIf _ rfl
  case ldVxKK | addVxKK | ldVxVy | orVxVy | andVxVy | xorVxVy | ldVxDT => exact .of_setReg _ fun _ => rfl
  case addVxVy | shrVx | shlVx =>
    refine .of_regs rfl fun r hr => ?_
    obtain ⟨hx, hf⟩ := not_or.1 (of_decide_eq_false hr)
    rw [reg_setFlagThenReg, if_neg hx, if_neg hf]
  case subVxVy | subnVxVy =>
    refine .of_regs (subtractInto_eq ..) fun r hr => ?_
    obtain ⟨hx, hf⟩ := not_or.1 (of_decide_eq_false hr)
    exact reg_subtractInto_of_ne _ _ hx hf
  case ldVxMem =>
    refine .of_regs rfl fun r hr => ?_
    rw [reg_loadRegs, if_neg (of_decide_eq_false hr)]
  case ldINNN nnn => exact .ldINNN nnn
  case addIVx x => exact .addIVx x
  case ldDTVx x => exact .ldDTVx x
  case cls => exact .cls
  case drwVxVyN x y n => exact .drwVxVyN x y n _ fun k hk => spriteCells_lt _ _ _ _ _ k hk
  case ldBVx x => exact .store _ _ _ ⟨x, .inl rfl⟩
  case ldMemVx x => exact .store _ _ _ ⟨x, .inr rfl⟩
  case rndVxKK x kk => exact .rndVxKK x kk _

/-- All that a step can do: an instruction's effect between the pre-increment and the tick, or nothing between them. -/
theorem step_effect {t : State} (h : step s = .next t) :
    (∃ i u, s.current = some i ∧ Effect s.begin i u ∧ t = u.tick) ∨ (s.current = none ∧ t = s.begin.unmatched.tick) :=
  (step_next_cases h).imp_left fun ⟨i, u, hi, hu, ht⟩ => ⟨i, u, hi, effect_of_exec hu, ht⟩

/-- A step with a known instruction runs it. -/
theorem exec_of_step {t : State} (hi : s.current = some i) (h : step s = .next t) :
    ∃ u, exec i s.begin = .next u ∧ t = u.tick :=
  finishStep_eq_next.1 (step_of_current hi ▸ h)

/-! ### The frame of each element -/

namespace Effect

theorem kp_params (h : Effect s i u) : u.kp = s.kp ∧ u.params = s.params := by
  cases h with
  | store | rndVxKK => simp
  | _ => exact ⟨rfl, rfl⟩

theorem fb (h : Effect s i u) (hcls : i ≠ .cls) (hdrw : ∀ x y n, i ≠ .drwVxVyN x y n) : u.fb = s.fb := by
  cases h with
  | cls => exact absurd rfl hcls
  | drwVxVyN x y n => exact absurd rfl (hdrw x y n)
  | store | rndVxKK => simp
  | _ => rfl

theorem reg (h : Effect s i u) (r : Reg) (hr : i.mayWrite r = false) : u.reg r = s.reg r := by
  cases h with
  | regs _ v h => exact h r hr
  | drwVxVyN => rw [reg_drawCells, if_neg (of_decide_eq_false hr)]
  | rndVxKK => rw [reg_setReg, if_neg (of_decide_eq_false hr), reg_consumeRnd]
  | store => exact reg_storeBytes ..
  | _ => rfl

theorem stack_cases (h : Effect s i u) :
    u.stack = s.stack ∨ ((∃ nnn, i = .call nnn) ∧ u.stack = s.stack ++ [s.pc]) ∨
      (i = .ret ∧ s.stack = u.stack ++ [u.pc]) := by
  cases h with
  | call nnn => exact .inr (.inl ⟨⟨nnn, rfl⟩, rfl⟩)
  | ret below top hs => exact .inr (.inr ⟨rfl, by simp [hs]⟩)
  | store | rndVxKK => simp
  | _ => exact .inl rfl

theorem index_cases (h : Effect s i u) :
    u.i = s.i ∨ (∃ nnn, i = .ldINNN nnn ∧ u.i = addrWord nnn) ∨
      ∃ x, i = .addIVx x ∧ u.i = s.i + byteWord (s.reg x) := by
  cases h with
  | ldINNN nnn => exact .inr (.inl ⟨nnn, rfl, rfl⟩)
  | addIVx x => exact .inr (.inr ⟨x, rfl, rfl⟩)
  | store | rndVxKK => simp
  | _ => exact .inl rfl

theorem pc_eq (h : Effect s i u) (hi : i.mayWritePc = false) : u.pc = s.pc := by
  cases h with
  | pc _ w h => exact absurd h (by simp [hi])
  | call | ret => cases hi
  | store | rndVxKK => simp
  | _ => rfl

theorem rnd_input (h : Effect s i u) (hi : ∀ x kk, i ≠ .rndVxKK x kk) : u.rndIn = s.rndIn ∧ u.draws = s.draws := by
  cases h with
  | rndVxKK x kk => exact absurd rfl (hi x kk)
  | store => simp
  | _ => exact ⟨rfl, rfl⟩

/-- R27: every effect keeps the invariant. A CALL pushes only where there is room, a RET shortens the stack, and a draw
leaves lit cells at PIXEL_ON. -/
theorem inv (h : Effect s i u) (hs : s.inv = true) : u.inv = true := by
  rw [inv_iff] at hs ⊢
  obtain ⟨hvalid, hstack, hpixels, hfb, hmem⟩ := hs
  cases h with
  | call nnn hroom =>
    have hpushed : (s.stack ++ [s.pc]).length ≤ s.params.stackDepth := by simpa using hroom
    exact ⟨hvalid, hpushed, hpixels, hfb, hmem⟩
  | ret =>
    have hpopped := (List.dropLast_sublist s.stack).length_le.trans hstack
    exact ⟨hvalid, hpopped, hpixels, hfb, hmem⟩
  | cls => exact ⟨hvalid, hstack, by simp, rfl, hmem⟩
  | drwVxVyN x y n cells hcells =>
    exact ⟨hvalid, hstack, toggleCells_values _ _ _ _ hpixels, toggleCells_wf _ _ _ _ hcells hfb, hmem⟩
  | store _ a bs =>
    simp only [State.storeBytes_params, State.storeBytes_stack, State.storeBytes_fb]
    exact ⟨hvalid, hstack, hpixels, hfb, storeBytes_wf s a bs hmem⟩
  | rndVxKK =>
    simp only [State.setReg_params, State.setReg_stack, State.setReg_fb, State.setReg_mem, State.consumeRnd_params,
      State.consumeRnd_stack, State.consumeRnd_fb, State.consumeRnd_mem]
    exact ⟨hvalid, hstack, hpixels, hfb, hmem⟩
  | _ => exact ⟨hvalid, hstack, hpixels, hfb, hmem⟩

end Effect

end

end Sys2Proof.Machine
end

section
/-! PROOFS. O58, O57 and O59: the invariant of 10_state.md R27, at reset, over a step and over every reachable state. -/

namespace Sys2Proof.Machine

/-! The parts of a step beside the instruction touch nothing the invariant speaks of. -/

@[simp] theorem inv_tick (s : State) : s.tick.inv = s.inv := rfl
@[simp] theorem inv_unmatched (s : State) : s.unmatched.inv = s.inv := rfl
@[simp] theorem inv_begin (s : State) : s.begin.inv = s.inv := rfl

/-- Settles O58: the instruction between the pre-increment and the tick keeps the invariant (`Effect.inv`). -/
theorem stepKeepsTheInvariant : Obligations.StepKeepsTheInvariant := by
  intro s t hs h
  rcases step_effect h with ⟨i, u, -, he, rfl⟩ | ⟨-, rfl⟩
  · rw [inv_tick]
    exact he.inv hs
  · simpa using hs

theorem inv_resetWith {p : Config.Params} (h : p.valid = true) : (State.resetWith p).inv = true :=
  (inv_iff _).2 ⟨h, Nat.zero_le _, by simp, rfl, resetWith_mem_wf p⟩

/-- Settles O57: at reset the stack is empty, and the framebuffer and memory list nothing. -/
theorem resetMeetsTheInvariant : Obligations.ResetMeetsTheInvariant :=
  ⟨fun _ h => inv_resetWith h, inv_resetWith (by decide)⟩

theorem inv_loadByte {s : State} (a : Addr12) (b : Byte) (h : s.inv = true) : (s.loadByte a b).inv = true := by
  obtain ⟨hvalid, hstack, hpixels, hfb, hmem⟩ := (inv_iff s).1 h
  exact (inv_iff _).2 ⟨hvalid, hstack, hpixels, hfb, memWrite_wf _ _ _ b hmem⟩

theorem Reachable.inv {f : Phase} {s : State} (h : Reachable f s) : s.inv = true := by
  induction h with
  | powerUp p hp => exact inv_resetWith hp
  | reset f s _ ih => exact inv_resetWith ((inv_iff s).1 ih).1
  | load s a b _ ih => exact inv_loadByte a b ih
  | keyWrite f s k b _ ih => exact ih
  | driveRnd f s b _ ih => exact ih
  | step f s t _ hstep ih => exact stepKeepsTheInvariant s t ih hstep

/-- SP never exceeds the number of addresses on the stack. -/
theorem toNat_sp_le (s : State) : s.sp.toNat ≤ s.stack.length := by
  rw [State.sp, BitVec.toNat_ofNat]
  exact Nat.mod_le _ _

/-- Settles O59, by induction on how the state is reached; the bounds are parts of the invariant. -/
theorem reachableStatesMeetTheInvariant : Obligations.ReachableStatesMeetTheInvariant := by
  intro f s h
  obtain ⟨-, hstack, hpixels, -⟩ := (inv_iff s).1 h.inv
  exact ⟨h.inv, (toNat_sp_le s).trans hstack, pixel_of_pixelsOk hpixels⟩

end Sys2Proof.Machine
end

section
/-! PROOFS. O4: a list of cells in canonical form is known by what it reads as. It lists exactly the cells that differ from
the background, and a strictly sorted list is known by its members. -/

namespace Sys2Proof.Machine

section
variable {β : Type}

/-- The order of the entries in a canonical list. -/
def CellBefore (p q : Nat × β) : Prop := p.1 < q.1

theorem cellsSorted_iff_pairwise (m : List (Nat × β)) : cellsSorted m = true ↔ m.Pairwise CellBefore := by
  induction m with
  | nil => simp [cellsSorted]
  | cons p m ih => rw [cellsSorted_cons, List.pairwise_cons, ih]; rfl

/-- Strictly sorted lists with the same members are equal. -/
theorem eq_of_cellsSorted {m m' : List (Nat × β)} (h : cellsSorted m = true) (h' : cellsSorted m' = true)
    (hmem : ∀ p, p ∈ m ↔ p ∈ m') : m = m' := by
  have : Std.Irrefl (CellBefore (β := β)) := ⟨fun p => Nat.lt_irrefl p.1⟩
  have : Std.Antisymm (CellBefore (β := β)) := ⟨fun _ _ hpq hqp => absurd hpq (Nat.lt_asymm hqp)⟩
  exact ((cellsSorted_iff_pairwise m).1 h).eq_of_mem_iff ((cellsSorted_iff_pairwise m').1 h') hmem

variable [DecidableEq β] {size : Nat} {bg : Nat → β} {m m' : List (Nat × β)}

/-- A canonical list lists the cells below the size that do not read as the background. -/
theorem mem_iff_of_cellsWf (h : cellsWf size bg m = true) (p : Nat × β) :
    p ∈ m ↔ p.1 < size ∧ p.2 ≠ bg p.1 ∧ cellRead bg m p.1 = p.2 := by
  obtain ⟨hsorted, hentries⟩ := (cellsWf_iff bg size m).1 h
  constructor
  · intro hp
    obtain ⟨hlt, hne⟩ := hentries p hp
    exact ⟨hlt, hne, cellRead_eq_of_mem bg hsorted hp⟩
  · rintro ⟨-, hne, hread⟩
    rcases cellRead_cases bg m p.1 with hp | hbg
    · rwa [hread] at hp
    · exact absurd (hread.symm.trans hbg) hne

theorem eq_of_cellRead_eq (h : cellsWf size bg m = true) (h' : cellsWf size bg m' = true)
    (hread : ∀ a, a < size → cellRead bg m a = cellRead bg m' a) : m = m' := by
  refine eq_of_cellsSorted ((cellsWf_iff bg size m).1 h).1 ((cellsWf_iff bg size m').1 h').1 fun p => ?_
  rw [mem_iff_of_cellsWf h, mem_iff_of_cellsWf h']
  exact and_congr_right fun hp => by rw [hread p.1 hp]

end

/-- Settles O4: both are lists of cells in canonical form; an address below the size of memory is not reduced. -/
theorem canonicalFormIsUnique : Obligations.CanonicalFormIsUnique := by
  refine ⟨fun p m m' h h' hread => eq_of_cellRead_eq h h' fun a ha => ?_,
    fun fb fb' h h' hread => eq_of_cellRead_eq h h' hread⟩
  have := hread a ha
  rwa [memRead, memRead, Nat.mod_eq_of_lt ha] at this

end Sys2Proof.Machine
end

section
/-! PROOFS. O19 to O25: which steps change each element of the state (10_state.md R11 to R19, R22). Each is the element's
frame over the effect of the instruction. -/

namespace Sys2Proof.Machine

/-- Settles O19: no effect writes the keypad or the parameters. -/
theorem stepNeverWritesTheKeypad : Obligations.StepNeverWritesTheKeypad := by
  intro s t h
  rcases step_effect h with ⟨i, u, -, he, rfl⟩ | ⟨-, rfl⟩
  · exact he.kp_params
  · exact ⟨rfl, rfl⟩

/-- Settles O20: the effects of all other instructions leave the framebuffer alone. -/
theorem onlyClsAndDrwChangeTheFramebuffer : Obligations.OnlyClsAndDrwChangeTheFramebuffer := by
  intro s t h hcls hdrw
  rcases step_effect h with ⟨i, u, hi, he, rfl⟩ | ⟨-, rfl⟩
  · simp only [hi, ne_eq, Option.some.injEq] at hcls hdrw
    exact he.fb hcls hdrw
  · rfl

/-- Settles O21: the effect of the instruction at pc writes no register that it does not list. -/
theorem onlyListedRegistersAreWritten : Obligations.OnlyListedRegistersAreWritten := by
  intro s t r h hne
  rcases step_effect h with ⟨i, u, hi, he, rfl⟩ | ⟨-, rfl⟩
  · exact ⟨i, hi, eq_true_of_ne_false fun hr => hne (he.reg r hr)⟩
  · exact absurd rfl hne

/-- Settles O22: the stack after the step is one of the three that an effect leaves. -/
theorem onlyCallAndRetMoveTheStack : Obligations.OnlyCallAndRetMoveTheStack := by
  intro s t h hne
  rcases step_effect h with ⟨i, u, hi, he, rfl⟩ | ⟨-, rfl⟩
  · rcases he.stack_cases with hsame | ⟨⟨nnn, rfl⟩, hpush⟩ | ⟨rfl, hpop⟩
    · exact absurd hsame hne
    · exact .inl ⟨⟨nnn, hi⟩, hpush⟩
    · exact .inr ⟨hi, hpop⟩
  · exact absurd rfl hne

theorem toNat_addrWord (nnn : Addr12) : (addrWord nnn).toNat = nnn.toNat :=
  BitVec.toNat_setWidth_of_le (by decide)

theorem toNat_byteWord (b : Byte) : (byteWord b).toNat = b.toNat := BitVec.toNat_setWidth_of_le (by decide)

/-- Settles O23: the index register after the step is one of the three that an effect leaves. -/
theorem onlyTwoInstructionsWriteI : Obligations.OnlyTwoInstructionsWriteI := by
  intro s t h hne
  rcases step_effect h with ⟨i, u, hi, he, rfl⟩ | ⟨-, rfl⟩
  · rcases he.index_cases with hsame | ⟨nnn, rfl, hw⟩ | ⟨x, rfl, hw⟩
    · exact absurd hsame hne
    · refine .inl ⟨nnn, hi, ?_⟩
      rw [State.tick_i, hw, toNat_addrWord]
    · refine .inr ⟨x, hi, ?_⟩
      rw [State.tick_i, hw, BitVec.toNat_add, toNat_byteWord]
      rfl
  · exact absurd rfl hne

/-! ### Where a step leaves pc -/

section
variable {s t : State}

theorem pc_of_step (h : step s = .next t) (hw : ∀ i, s.current = some i → i.mayWritePc = false) :
    t.pc = s.pc + 2#16 := by
  rcases step_effect h with ⟨i, u, hi, he, rfl⟩ | ⟨-, rfl⟩
  · exact he.pc_eq (hw i hi)
  · rfl

/-- The six skips (R14), with the operands x, y and kk. -/
def IsSkip (i : Instr) (x y : Reg) (kk : Byte) : Prop :=
  i = .seVxKK x kk ∨ i = .sneVxKK x kk ∨ i = .seVxVy x y ∨ i = .sneVxVy x y ∨ i = .skpVx x ∨ i = .sknpVx x

/-- A skip advances pc once more, or not at all. -/
theorem exec_skip {i : Instr} {x y : Reg} {kk : Byte} (s : State) (hi : IsSkip i x y kk) :
    ∃ c, exec i s = .next (s.skipIf c) := by
  rcases hi with rfl | rfl | rfl | rfl | rfl | rfl
  all_goals exact ⟨_, rfl⟩

theorem pc_of_step_skip {i : Instr} {x y : Reg} {kk : Byte} (h : step s = .next t) (hc : s.current = some i)
    (hi : IsSkip i x y kk) :
    t.pc = s.pc + 2#16 ∨ t.pc = s.pc + 4#16 := by
  obtain ⟨c, hskip⟩ := exec_skip s.begin hi
  obtain ⟨u, hu, rfl⟩ := exec_of_step hc h
  cases hskip.symm.trans hu
  cases c
  · exact .inl rfl
  · exact .inr (BitVec.add_assoc ..)

theorem pc_of_step_ldVxK {x : Reg} (h : step s = .next t) (hc : s.current = some (.ldVxK x)) :
    t.pc = s.pc + 2#16 ∨ t.pc = s.pc := by
  obtain ⟨u, hu, rfl⟩ := exec_of_step hc h
  rcases exec_ldVxK_cases hu with ⟨-, rfl⟩ | ⟨k, -, rfl⟩
  · exact .inr (BitVec.add_sub_cancel ..)
  · exact .inl rfl

end

/-- Settles O24: the pre-increment, then nothing, one more skip, or the key wait's rewind. -/
theorem onlyListedInstructionsRedirectPc : Obligations.OnlyListedInstructionsRedirectPc := by
  intro s t h
  refine ⟨pc_of_step h, fun x y kk hskip => ?_, fun x => pc_of_step_ldVxK h⟩
  cases hc : s.current with
  | none => simp [hc] at hskip
  | some i => exact pc_of_step_skip h hc (by simpa only [hc, Option.some.injEq, IsSkip] using hskip)

/-- Settles O25: no other effect touches the random input, and CXKK consumes from it once. -/
theorem onlyRndDrawsARandomByte : Obligations.OnlyRndDrawsARandomByte := by
  intro s t h
  constructor
  · intro hrnd
    rcases step_effect h with ⟨i, u, hi, he, rfl⟩ | ⟨-, rfl⟩
    · simp only [hi, ne_eq, Option.some.injEq] at hrnd
      exact he.rnd_input hrnd
    · exact ⟨rfl, rfl⟩
  · intro x kk hc
    obtain ⟨u, hu, rfl⟩ := exec_of_step hc h
    cases hu
    cases hin : s.rndIn with
    | nil => exact .inr (by simp [hin])
    | cons b bs => exact .inl ⟨b, by simp [hin]⟩

end Sys2Proof.Machine
end

section
/-! PROOFS. O1 and O2: the values of 10_state.md R24 to R26 after reset. -/

namespace Sys2Proof.Machine

section
variable {s : State}

/-- After a reset of either kind every element but the random input is that of `State.resetWith`. -/
theorem eq_resetWith_of_reset (h : s = State.reset ∨ (∃ p, s = State.resetWith p) ∨ ∃ u : State, s = u.hostReset) :
    ∃ p bs n, s = { State.resetWith p with rndIn := bs, draws := n } := by
  rcases h with rfl | ⟨p, rfl⟩ | ⟨u, rfl⟩
  · exact ⟨defaultParams, [], 0, rfl⟩
  · exact ⟨p, [], 0, rfl⟩
  · exact ⟨u.params, u.rndIn, u.draws, rfl⟩

/-- Where memory lists nothing, an address reads as its reset byte. -/
theorem readByte_of_mem_nil (h : s.mem = []) {a : Nat} (ha : a < 4096) : s.readByte a = resetByte s.params a := by
  rw [State.readByte, memRead, h, cellRead, Nat.mod_eq_of_lt (show a < Config.memSize from ha)]

theorem resetByte_font (p : Config.Params) {a : Nat} (ha : a < 80) : resetByte p a = p.font.getD a 0#8 := if_pos ha

theorem resetByte_above (p : Config.Params) {a : Nat} (ha : 80 ≤ a) : resetByte p a = 0#8 := if_neg (Nat.not_lt.2 ha)

/-- A loaded image leaves the addresses above it alone. -/
theorem readByte_loadImage_above {t : State} {img : List Byte} {a : Nat} (h : s.loadImage img = .ok t)
    (ha : 0x200 + img.length ≤ a) (hsize : a < 4096) : t.readByte a = s.readByte a := by
  obtain ⟨-, rfl⟩ := (loadImage_eq_ok s t img).1 h
  refine readByte_storeBytes_of_outside _ _ _ _ fun k hk => ?_
  simp only [Config.memSize]
  omega

end

/-- Settles O1: every element has its value by definition, and memory lists nothing, so it reads as its reset bytes. -/
theorem resetGivesEveryElementItsValue : Obligations.ResetGivesEveryElementItsValue := by
  intro s hs
  obtain ⟨p, bs, n, rfl⟩ := eq_resetWith_of_reset hs
  set s : State := { State.resetWith p with rndIn := bs, draws := n }
  have hfont (a : Nat) (ha : a < 80) : s.readByte a = p.font.getD a 0#8 :=
    (readByte_of_mem_nil rfl (by omega)).trans (resetByte_font p ha)
  have hzero (a : Nat) (ha : 80 ≤ a) (hsize : a < 4096) : s.readByte a = 0#8 :=
    (readByte_of_mem_nil rfl hsize).trans (resetByte_above p ha)
  refine ⟨reg_resetWith p, rfl, rfl, rfl, rfl, rfl, fun _ => rfl, fun k => ?_, hfont, hzero, ?_⟩
  · simp [s, State.key]
  · intro img t a h ha hsize
    rw [readByte_loadImage_above h ha hsize, hzero a (by omega) hsize]

/-- Settles O2: the five bytes are the first five of FONT, which every valid FONT starts with. -/
theorem glyphZeroStandsAtAddressZero : Obligations.GlyphZeroStandsAtAddressZero := by
  refine ⟨by decide, fun p hp => ?_⟩
  obtain ⟨-, -, hlength, hglyph⟩ := (valid_iff p).1 hp
  rw [← hglyph]
  apply List.ext_getElem
  · simp [hlength]
  · intro a ha _
    have ha : a < 5 := by simpa using ha
    have hread : (State.resetWith p).readByte a = p.font.getD a 0#8 :=
      (readByte_of_mem_nil rfl (by omega)).trans (resetByte_font p (by omega))
    have hlt : a < p.font.length := by omega
    simp [hread, hlt]

end Sys2Proof.Machine
end

section
/-! PROOFS. O3 and O5, O18 and O7: memory accesses and the fetch (20_memory.md R31, R32), and the stores as the only writers
of memory, seen by the very next fetch (R40, R43). -/

namespace Sys2Proof.Machine

/-! ### Single accesses -/

section
variable (s : State) {a b : Nat}

theorem readByte_eq_of_mod_eq (h : a % Config.memSize = b % Config.memSize) : s.readByte a = s.readByte b := by
  rw [← readByte_mod, h, readByte_mod]

theorem writeByte_eq_of_mod_eq (v : Byte) (h : a % Config.memSize = b % Config.memSize) :
    s.writeByte a v = s.writeByte b v := by
  rw [State.writeByte, memWrite, h]
  rfl

end

/-- Settles O3: both accesses use the address modulo 4096, and a read after a write is `readByte_writeByte`. -/
theorem memoryAccessWrapsAndWritesOneByte : Obligations.MemoryAccessWrapsAndWritesOneByte := by
  intro s a b v
  have hwrap : (a + 4096) % Config.memSize = a % Config.memSize := Nat.add_mod_right a 4096
  refine ⟨readByte_eq_of_mod_eq s hwrap, writeByte_eq_of_mod_eq s v hwrap, ?_, fun hne => ?_, rfl⟩
  · rw [readByte_writeByte, if_pos rfl]
  · rw [readByte_writeByte]
    exact if_neg hne.symm

theorem readByte_loadImage {s t : State} {img : List Byte} (h : s.loadImage img = .ok t) {n : Nat}
    (hn : n < img.length) : t.readByte (0x200 + n) = img[n] := by
  obtain ⟨hlength, rfl⟩ := (loadImage_eq_ok s t img).1 h
  exact readByte_storeBytes s 0x200 img (hlength.trans (by decide)) n hn

/-- A load leaves pc where it is. -/
theorem pc_loadImage {s t : State} {img : List Byte} (h : s.loadImage img = .ok t) : t.pc = s.pc := by
  obtain ⟨-, rfl⟩ := (loadImage_eq_ok s t img).1 h
  exact State.storeBytes_pc ..

/-- Settles O5: the two halves of the fetched word are the two bytes read, and each byte of an image is read at its place. -/
theorem fetchIsBigEndian : Obligations.FetchIsBigEndian := by
  refine ⟨fun s => ⟨highByte_fetchWord s, lowByte_fetchWord s⟩, fun s t img h => ⟨fun n => readByte_loadImage h, ?_⟩⟩
  intro hpc hlength
  have hstart : t.pc.toNat = 0x200 := by rw [pc_loadImage h, hpc]; rfl
  calc t.fetchWord
      = t.readByte (0x200 + 0) ++ t.readByte (0x200 + 1) := by rw [State.fetchWord, hstart]
    _ = img[0] ++ img[1] := by rw [readByte_loadImage h, readByte_loadImage h]

/-! ### The stores -/

theorem Effect.mem {s u : State} {i : Instr} (h : Effect s i u) (hdigits : ∀ x, i ≠ .ldBVx x)
    (hregs : ∀ x, i ≠ .ldMemVx x) : u.mem = s.mem := by
  cases h with
  | store _ _ _ hi =>
    obtain ⟨x, hx | hx⟩ := hi
    · exact absurd hx (hdigits x)
    · exact absurd hx (hregs x)
  | rndVxKK => simp
  | _ => rfl

/-- Settles O18: the effects of all other instructions leave memory alone, and no effect writes the parameters, on which a
read also depends. -/
theorem onlyStoresChangeMemory : Obligations.OnlyStoresChangeMemory := by
  intro s t h hdigits hregs
  have hmem : t.mem = s.mem := by
    rcases step_effect h with ⟨i, u, hi, he, rfl⟩ | ⟨-, rfl⟩
    · simp only [hi, ne_eq, Option.some.injEq] at hdigits hregs
      exact he.mem hdigits hregs
    · rfl
  exact ⟨hmem, readByte_congr hmem (stepNeverWritesTheKeypad s t h).2⟩

/-- After a step whose instruction only stores bytes, each byte of the next fetch is the one stored at its address, or else
the old one. -/
theorem fetch_after_store {s t : State} {i : Instr} {base : Nat} {bs : List Byte} (h : step s = .next t)
    (hc : s.current = some i) (hi : exec i s.begin = .next (s.begin.storeBytes base bs))
    (hlength : bs.length ≤ Config.memSize) :
    t.pc = s.pc + 2#16 ∧ ReadsAfterStore s base bs t.pc.toNat (highByte t.fetchWord) ∧
      ReadsAfterStore s base bs (t.pc.toNat + 1) (lowByte t.fetchWord) := by
  obtain ⟨u, hu, rfl⟩ := exec_of_step hc h
  cases hi.symm.trans hu
  rw [highByte_fetchWord, lowByte_fetchWord]
  exact ⟨State.storeBytes_pc .., readsAfterStore_storeBytes s.begin base bs hlength _,
    readsAfterStore_storeBytes s.begin base bs hlength _⟩

theorem regsUpTo_eq_map (s : State) (x : Reg) :
    s.regsUpTo x = (List.range (x.toNat + 1)).map fun k => s.reg (BitVec.ofNat 4 k) := by
  apply List.ext_getElem
  · simp [length_regsUpTo]
  · intro k hk _
    simp [getElem_regsUpTo s x k hk]

/-- Settles O7: FX33 stores three bytes and FX55 at most sixteen, fewer than memory holds, so none is stored over. -/
theorem nextFetchSeesTheStore : Obligations.NextFetchSeesTheStore := by
  intro s t x h
  constructor
  · intro hc
    exact fetch_after_store h hc (exec_ldBVx s.begin x) (show 3 ≤ 4096 by decide)
  · intro hc
    have hlength : (s.regsUpTo x).length ≤ Config.memSize := by
      have := x.isLt
      rw [length_regsUpTo, Config.memSize]
      omega
    rw [← regsUpTo_eq_map]
    exact fetch_after_store h hc (exec_ldMemVx s.begin x) hlength

end Sys2Proof.Machine
end

section
/-! PROOFS. O8 to O13: the decoder, the encoder and the dispatch table (30_encoding.md R50 to R57, R65). One case analysis of
the decoder, `answers_decodeWord`, says all it can answer: an instruction whose encoding is the word, or the rejection of a
word that R57 lists. The rows of the table are met through it. -/

namespace Sys2Proof

section
variable {w : Word} {i : Instr}

/-! ### A word with known fields is the word of its format -/

theorem wordA_of_fields {t : BitVec 4} (ht : fieldT w = t) : wordA t (fieldNNN w) = w :=
  ht ▸ wordA_fields w

theorem wordI_of_fields {t : BitVec 4} {kk : Byte} (ht : fieldT w = t) (hkk : fieldKK w = kk) :
    wordI t (fieldX w) kk = w :=
  ht ▸ hkk ▸ wordI_fields w

theorem wordR_of_fields {t : BitVec 4} {n : Nibble} (ht : fieldT w = t) (hn : fieldN w = n) :
    wordR t (fieldX w) (fieldY w) n = w :=
  ht ▸ hn ▸ wordR_fields w

/-! ### All that the decoder answers -/

/-- R57's list of the unmatched words, family by family. -/
def Unmatched (w : Word) : Prop :=
  (fieldT w = 0x0#4 ∧ w ≠ 0x00E0#16 ∧ w ≠ 0x00EE#16) ∨
    (fieldT w = 0x5#4 ∧ fieldN w ≠ 0x0#4) ∨
    (fieldT w = 0x8#4 ∧ fieldN w ∈ [0x8#4, 0x9#4, 0xA#4, 0xB#4, 0xC#4, 0xD#4, 0xF#4]) ∨
    (fieldT w = 0x9#4 ∧ fieldN w ≠ 0x0#4) ∨
    (fieldT w = 0xE#4 ∧ fieldKK w ∉ [0x9E#8, 0xA1#8]) ∨
    (fieldT w = 0xF#4 ∧ fieldKK w ∉ [0x07#8, 0x0A#8, 0x15#8, 0x1E#8, 0x33#8, 0x55#8, 0x65#8])

/-- What a decoder may answer for the word w: an instruction that is encoded as w, or the rejection of w by its name. -/
inductive Answers (w : Word) : Except DecodeError Instr → Prop where
  | instr (i : Instr) (h : encode i = w) : Answers w (.ok i)
  | unmatched (h : Unmatched w) : Answers w (.error (.unmatched w))

theorem answers_decodeZero (ht : fieldT w = 0x0#4) : Answers w (decodeZero w) := by
  unfold decodeZero
  split
  · next h => exact .instr _ h.symm
  split
  · next h => exact .instr _ h.symm
  next hcls hret => exact .unmatched (.inl ⟨ht, hcls, hret⟩)

theorem answers_decodeAlu (ht : fieldT w = 0x8#4) : Answers w (decodeAlu w) := by
  unfold decodeAlu
  split
  case h_10 =>
    -- The nine arms above leave seven low nibbles.
    have hn : fieldN w ∈ [0x8#4, 0x9#4, 0xA#4, 0xB#4, 0xC#4, 0xD#4, 0xF#4] := by
      generalize fieldN w = n at *
      revert n
      decide
    exact .unmatched (.inr (.inr (.inl ⟨ht, hn⟩)))
  all_goals exact .instr _ (wordR_of_fields ht (BitVec.eq_of_toNat_eq ‹_›))

theorem answers_decodeKey (ht : fieldT w = 0xE#4) : Answers w (decodeKey w) := by
  unfold decodeKey
  split
  case h_3 =>
    have hkk : fieldKK w ∉ [0x9E#8, 0xA1#8] := by simp_all [← BitVec.toNat_inj]
    exact .unmatched (.inr (.inr (.inr (.inr (.inl ⟨ht, hkk⟩)))))
  all_goals exact .instr _ (wordI_of_fields ht (BitVec.eq_of_toNat_eq ‹_›))

theorem answers_decodeMisc (ht : fieldT w = 0xF#4) : Answers w (decodeMisc w) := by
  unfold decodeMisc
  split
  case h_8 =>
    have hkk : fieldKK w ∉ [0x07#8, 0x0A#8, 0x15#8, 0x1E#8, 0x33#8, 0x55#8, 0x65#8] := by
      simp_all [← BitVec.toNat_inj]
    exact .unmatched (.inr (.inr (.inr (.inr (.inr ⟨ht, hkk⟩)))))
  all_goals exact .instr _ (wordI_of_fields ht (BitVec.eq_of_toNat_eq ‹_›))

theorem answers_decodeWord (w : Word) : Answers w (decodeWord w) := by
  unfold decodeWord
  split
  case h_1 ht => exact answers_decodeZero (BitVec.eq_of_toNat_eq ht)
  case h_2 | h_3 | h_11 | h_12 => exact .instr _ (wordA_of_fields (BitVec.eq_of_toNat_eq ‹_›))
  case h_4 | h_5 | h_7 | h_8 | h_13 => exact .instr _ (wordI_of_fields (BitVec.eq_of_toNat_eq ‹_›) rfl)
  case h_6 ht =>
    have ht : fieldT w = 0x5#4 := BitVec.eq_of_toNat_eq ht
    split
    · next hn => exact .instr _ (wordR_of_fields ht hn)
    · next hn => exact .unmatched (.inr (.inl ⟨ht, hn⟩))
  case h_9 ht => exact answers_decodeAlu (BitVec.eq_of_toNat_eq ht)
  case h_10 ht =>
    have ht : fieldT w = 0x9#4 := BitVec.eq_of_toNat_eq ht
    split
    · next hn => exact .instr _ (wordR_of_fields ht hn)
    · next hn => exact .unmatched (.inr (.inr (.inr (.inl ⟨ht, hn⟩))))
  case h_14 ht => exact .instr _ (wordR_of_fields (BitVec.eq_of_toNat_eq ht) rfl)
  case h_15 ht => exact answers_decodeKey (BitVec.eq_of_toNat_eq ht)
  case h_16 =>
    -- The fifteen arms above leave one family.
    have ht : fieldT w = 0xF#4 := by
      generalize fieldT w = t at *
      revert t
      decide
    exact answers_decodeMisc ht

/-! ### Encoding is inverse to decoding (R52, R55) -/

theorem decodeWord_encode (i : Instr) : decodeWord (encode i) = .ok i := by
  cases i
  case cls | ret => rfl
  -- Every other word is built of fields, which the decoder reads back.
  all_goals simp [encode, decodeWord, decodeAlu, decodeKey, decodeMisc]

theorem decodeWord_eq_ok_iff : decodeWord w = .ok i ↔ encode i = w := by
  constructor
  · intro h
    cases h ▸ answers_decodeWord w with
    | instr _ hi => exact hi
  · rintro rfl
    exact decodeWord_encode i

/-- The decoder rejects a word by its name, and only a word of R57's list. -/
theorem unmatched_of_decodeWord_eq_error {e : DecodeError} (h : decodeWord w = .error e) :
    e = .unmatched w ∧ Unmatched w := by
  cases h ▸ answers_decodeWord w with
  | unmatched hw => exact ⟨rfl, hw⟩

theorem not_unmatched_encode (i : Instr) : ¬ Unmatched (encode i) := by
  unfold Unmatched
  cases i
  case cls | ret => decide
  all_goals simp [encode]

theorem decodeWord_of_unmatched (h : Unmatched w) : decodeWord w = .error (.unmatched w) := by
  cases hd : decodeWord w with
  | ok i => exact absurd (decodeWord_eq_ok_iff.1 hd ▸ h) (not_unmatched_encode i)
  | error e => rw [(unmatched_of_decodeWord_eq_error hd).1]

end

/-- Settles O9: the two bytes of the encoding make its word again, and that word decodes to the instruction. -/
theorem decodeOfEncodeIsTheInstruction : Obligations.DecodeOfEncodeIsTheInstruction := by
  have hbytes (i : Instr) (rest : List Byte) : decode (wordBytes (encode i) ++ rest) = .ok (i, rest) := by
    refine (Machine.decode_two _ _ rest i rest).2 ⟨?_, rfl⟩
    rw [highByte_append_lowByte, decodeWord_encode]
  have hword (w : Word) : tableWord 16 w.toNat = w := by simp [tableWord, Nat.mod_eq_of_lt w.isLt]
  intro i rest
  have halone : decode (wordBytes (encode i)) = .ok (i, []) := by simpa using hbytes i []
  exact ⟨hbytes i rest, by simp [decodeTableWord, hword, halone]⟩

/-- Settles O10: all a decoder answers is an instruction encoded as the word. -/
theorem encodeOfDecodeIsTheWord : Obligations.EncodeOfDecodeIsTheWord :=
  fun _ _ => decodeWord_eq_ok_iff.1

/-- Settles O13: the decoder rejects only words that R57 lists, and it lists no encoding of an instruction. -/
theorem unmatchedWordsAreThoseOfTheTable : Obligations.UnmatchedWordsAreThoseOfTheTable := by
  intro w
  constructor
  · rintro ⟨e, he⟩
    exact (unmatched_of_decodeWord_eq_error he).2
  · exact fun h => ⟨_, decodeWord_of_unmatched h⟩

/-- Settles O8: fourteen closed instances of the decoder, each by evaluation. -/
theorem sampleWordsDecode : Obligations.SampleWordsDecode := by
  repeat' apply And.intro
  all_goals rfl

/-! ### The rows of R55 -/

section
variable {w : Word}

theorem fieldT_of_rowMatches {t : BitVec 4} (h : rowMatches w (0xF000#16, wordA t 0#12) = true) : fieldT w = t := by
  have h : w &&& 0xF000#16 = wordA t 0#12 := of_decide_eq_true h
  rw [← wordA_fields w, wordA_mask] at h
  simpa using congrArg fieldT h

theorem wordI_of_rowMatches {t : BitVec 4} {kk : Byte} (h : rowMatches w (0xF0FF#16, wordI t 0#4 kk) = true) :
    wordI t (fieldX w) kk = w := by
  have h : w &&& 0xF0FF#16 = wordI t 0#4 kk := of_decide_eq_true h
  rw [← wordI_fields w, wordI_mask] at h
  exact wordI_of_fields (by simpa using congrArg fieldT h) (by simpa using congrArg fieldKK h)

theorem wordR_of_rowMatches {t : BitVec 4} {n : Nibble} (h : rowMatches w (0xF00F#16, wordR t 0#4 0#4 n) = true) :
    wordR t (fieldX w) (fieldY w) n = w := by
  have h : w &&& 0xF00F#16 = wordR t 0#4 0#4 n := of_decide_eq_true h
  rw [← wordR_fields w, wordR_mask] at h
  exact wordR_of_fields (by simpa using congrArg fieldT h) (by simpa using congrArg fieldN h)

theorem eq_of_rowMatches {v : Word} (h : rowMatches w (0xFFFF#16, v) = true) : v = w := by
  have h : w &&& 0xFFFF#16 = v := of_decide_eq_true h
  exact h.symm.trans BitVec.and_allOnes

/-- A word that matches a row encodes an instruction of that row, with the word's own fields as operands. -/
theorem exists_instr_of_rowMatches : ∀ (k : Nat) (hk : k < dispatchTable.length),
    rowMatches w dispatchTable[k] = true → ∃ i : Instr, encode i = w ∧ i.row = k
  | 0, _, h => ⟨.cls, eq_of_rowMatches h, rfl⟩
  | 1, _, h => ⟨.ret, eq_of_rowMatches h, rfl⟩
  | 2, _, h => ⟨.jp _, wordA_of_fields (fieldT_of_rowMatches h), rfl⟩
  | 3, _, h => ⟨.call _, wordA_of_fields (fieldT_of_rowMatches h), rfl⟩
  | 4, _, h => ⟨.seVxKK _ _, wordI_of_fields (fieldT_of_rowMatches h) rfl, rfl⟩
  | 5, _, h => ⟨.sneVxKK _ _, wordI_of_fields (fieldT_of_rowMatches h) rfl, rfl⟩
  | 6, _, h => ⟨.seVxVy _ _, wordR_of_rowMatches h, rfl⟩
  | 7, _, h => ⟨.sneVxVy _ _, wordR_of_rowMatches h, rfl⟩
  | 8, _, h => ⟨.ldVxKK _ _, wordI_of_fields (fieldT_of_rowMatches h) rfl, rfl⟩
  | 9, _, h => ⟨.addVxKK _ _, wordI_of_fields (fieldT_of_rowMatches h) rfl, rfl⟩
  | 10, _, h => ⟨.ldVxVy _ _, wordR_of_rowMatches h, rfl⟩
  | 11, _, h => ⟨.orVxVy _ _, wordR_of_rowMatches h, rfl⟩
  | 12, _, h => ⟨.andVxVy _ _, wordR_of_rowMatches h, rfl⟩
  | 13, _, h => ⟨.xorVxVy _ _, wordR_of_rowMatches h, rfl⟩
  | 14, _, h => ⟨.addVxVy _ _, wordR_of_rowMatches h, rfl⟩
  | 15, _, h => ⟨.subVxVy _ _, wordR_of_rowMatches h, rfl⟩
  | 16, _, h => ⟨.shrVx _ _, wordR_of_rowMatches h, rfl⟩
  | 17, _, h => ⟨.subnVxVy _ _, wordR_of_rowMatches h, rfl⟩
  | 18, _, h => ⟨.shlVx _ _, wordR_of_rowMatches h, rfl⟩
  | 19, _, h => ⟨.ldINNN _, wordA_of_fields (fieldT_of_rowMatches h), rfl⟩
  | 20, _, h => ⟨.jpV0NNN _, wordA_of_fields (fieldT_of_rowMatches h), rfl⟩
  | 21, _, h => ⟨.rndVxKK _ _, wordI_of_fields (fieldT_of_rowMatches h) rfl, rfl⟩
  | 22, _, h => ⟨.drwVxVyN _ _ _, wordR_of_fields (fieldT_of_rowMatches h) rfl, rfl⟩
  | 23, _, h => ⟨.skpVx _, wordI_of_rowMatches h, rfl⟩
  | 24, _, h => ⟨.sknpVx _, wordI_of_rowMatches h, rfl⟩
  | 25, _, h => ⟨.ldVxDT _, wordI_of_rowMatches h, rfl⟩
  | 26, _, h => ⟨.ldDTVx _, wordI_of_rowMatches h, rfl⟩
  | 27, _, h => ⟨.ldVxK _, wordI_of_rowMatches h, rfl⟩
  | 28, _, h => ⟨.addIVx _, wordI_of_rowMatches h, rfl⟩
  | 29, _, h => ⟨.ldBVx _, wordI_of_rowMatches h, rfl⟩
  | 30, _, h => ⟨.ldMemVx _, wordI_of_rowMatches h, rfl⟩
  | 31, _, h => ⟨.ldVxMem _, wordI_of_rowMatches h, rfl⟩
  | k + 32, hk, _ => absurd (show k + 32 < 32 from hk) (by omega)

end

open Laws in
/-- The word of every instruction matches its row, constructor by constructor. -/
theorem rowMatches_encode : ∀ i : Instr, RowOfEncoding.Statement i
  | .cls => RowOfEncoding.cls
  | .ret => RowOfEncoding.ret
  | .jp nnn => RowOfEncoding.jp nnn
  | .call nnn => RowOfEncoding.call nnn
  | .seVxKK x kk => RowOfEncoding.seVxKK x kk
  | .sneVxKK x kk => RowOfEncoding.sneVxKK x kk
  | .seVxVy x y => RowOfEncoding.seVxVy x y
  | .sneVxVy x y => RowOfEncoding.sneVxVy x y
  | .ldVxKK x kk => RowOfEncoding.ldVxKK x kk
  | .addVxKK x kk => RowOfEncoding.addVxKK x kk
  | .ldVxVy x y => RowOfEncoding.ldVxVy x y
  | .orVxVy x y => RowOfEncoding.orVxVy x y
  | .andVxVy x y => RowOfEncoding.andVxVy x y
  | .xorVxVy x y => RowOfEncoding.xorVxVy x y
  | .addVxVy x y => RowOfEncoding.addVxVy x y
  | .subVxVy x y => RowOfEncoding.subVxVy x y
  | .shrVx x y => RowOfEncoding.shrVx x y
  | .subnVxVy x y => RowOfEncoding.subnVxVy x y
  | .shlVx x y => RowOfEncoding.shlVx x y
  | .ldINNN nnn => RowOfEncoding.ldINNN nnn
  | .jpV0NNN nnn => RowOfEncoding.jpV0NNN nnn
  | .rndVxKK x kk => RowOfEncoding.rndVxKK x kk
  | .drwVxVyN x y n => RowOfEncoding.drwVxVyN x y n
  | .skpVx x => RowOfEncoding.skpVx x
  | .sknpVx x => RowOfEncoding.sknpVx x
  | .ldVxDT x => RowOfEncoding.ldVxDT x
  | .ldDTVx x => RowOfEncoding.ldDTVx x
  | .ldVxK x => RowOfEncoding.ldVxK x
  | .addIVx x => RowOfEncoding.addIVx x
  | .ldBVx x => RowOfEncoding.ldBVx x
  | .ldMemVx x => RowOfEncoding.ldMemVx x
  | .ldVxMem x => RowOfEncoding.ldVxMem x

theorem row_lt (i : Instr) : i.row < dispatchTable.length := by
  cases i
  all_goals simp [Instr.row, dispatchTable]

theorem maskMatch_eq_getElem (i : Instr) : i.maskMatch = dispatchTable[i.row]'(row_lt i) :=
  List.getD_eq_getElem _ _ (row_lt i)

/-- A word matches a row exactly when it decodes to an instruction of that row. -/
theorem rowMatches_iff (w : Word) {k : Nat} (hk : k < dispatchTable.length) :
    rowMatches w dispatchTable[k] = true ↔ ∃ i, decodeWord w = .ok i ∧ i.row = k := by
  constructor
  · intro h
    obtain ⟨i, hi, hrow⟩ := exists_instr_of_rowMatches k hk h
    exact ⟨i, decodeWord_eq_ok_iff.2 hi, hrow⟩
  · rintro ⟨i, hi, rfl⟩
    rw [← maskMatch_eq_getElem, ← decodeWord_eq_ok_iff.1 hi]
    exact rowMatches_encode i

/-- Settles O11: a rejected word decodes to no instruction, and one that is not rejected decodes to one of some row. -/
theorem decoderFollowsTheDispatchTable : Obligations.DecoderFollowsTheDispatchTable := by
  refine fun w => ⟨fun k hk => rowMatches_iff w hk, ?_, fun h => ?_⟩
  · intro hd row hrow
    obtain ⟨k, hk, rfl⟩ := List.getElem_of_mem hrow
    refine eq_false_of_ne_true fun hm => ?_
    obtain ⟨i, hi, -⟩ := (rowMatches_iff w hk).1 hm
    cases hd.symm.trans hi
  · cases hd : decodeWord w with
    | ok i =>
      have hm := (rowMatches_iff w (row_lt i)).2 ⟨i, hd, rfl⟩
      exact absurd hm (by simp [h])
    | error e => rw [(unmatched_of_decodeWord_eq_error hd).1]

/-! ### Counting -/

theorem row_unique {w : Word} {j k : Nat} (hj : j < dispatchTable.length) (hk : k < dispatchTable.length)
    (hjm : rowMatches w dispatchTable[j] = true) (hkm : rowMatches w dispatchTable[k] = true) : j = k := by
  obtain ⟨i, hi, rfl⟩ := (rowMatches_iff w hj).1 hjm
  obtain ⟨i', hi', rfl⟩ := (rowMatches_iff w hk).1 hkm
  cases hi.symm.trans hi'
  rfl

/-- A digit d matches the digit m of a mask and the digit v of a match. -/
def digitMatches (m v d : BitVec 4) : Bool := decide (d &&& m = v)

/-- How many of the 16 digits match. -/
def digitCount (m v : BitVec 4) : Nat := (List.range 16).countP fun k => digitMatches m v (BitVec.ofNat 4 k)

/-- A row is matched digit by digit. -/
theorem rowMatches_wordR (t x y n : BitVec 4) (row : Word × Word) :
    rowMatches (wordR t x y n) row =
      (digitMatches (fieldT row.1) (fieldT row.2) t && (digitMatches (fieldX row.1) (fieldX row.2) x &&
        (digitMatches (fieldY row.1) (fieldY row.2) y && digitMatches (fieldN row.1) (fieldN row.2) n))) := by
  obtain ⟨mask, v⟩ := row
  rw [rowMatches, ← wordR_fields mask, ← wordR_fields v, wordR_and]
  simp [wordR_inj, digitMatches]

theorem countP_rowMatches (row : Word × Word) :
    (List.range 65536).countP (fun w => rowMatches (BitVec.ofNat 16 w) row) =
      digitCount (fieldT row.1) (fieldT row.2) * (digitCount (fieldX row.1) (fieldX row.2) *
        (digitCount (fieldY row.1) (fieldY row.2) * digitCount (fieldN row.1) (fieldN row.2))) :=
  countP_words _ _ _ _ (fun w => rowMatches w row) fun t x y n => rowMatches_wordR t x y n row

theorem digitCount_ones (v : BitVec 4) : digitCount 0xF#4 v = 1 := by revert v; decide

theorem digitCount_zeros : digitCount 0x0#4 0x0#4 = 16 := by decide

/-- Every digit of a mask is F, which one digit matches, or 0, which all sixteen match. -/
theorem countP_rowMatches_eq_rowSize : ∀ row ∈ dispatchTable,
    (List.range 65536).countP (fun w => rowMatches (BitVec.ofNat 16 w) row) = rowSize row := by
  simp only [countP_rowMatches]
  simp [dispatchTable, fieldT, fieldX, fieldY, fieldN, digitCount_ones, digitCount_zeros, rowSize, List.range_succ]

theorem countP_some_row :
    (List.range 65536).countP (fun w => dispatchTable.any (rowMatches (BitVec.ofNat 16 w))) = 43922 := by
  have hexclusive : dispatchTable.Pairwise fun a b =>
      ∀ w : Nat, rowMatches (BitVec.ofNat 16 w) a = true → rowMatches (BitVec.ofNat 16 w) b = false := by
    rw [List.pairwise_iff_getElem]
    intro j k hj hk hlt w hjm
    exact eq_false_of_ne_true fun hkm => hlt.ne (row_unique hj hk hjm hkm)
  calc _ = (dispatchTable.map fun row => (List.range 65536).countP fun w => rowMatches (BitVec.ofNat 16 w) row).sum :=
        countP_any dispatchTable (fun w => rowMatches (BitVec.ofNat 16 w)) _ hexclusive
    _ = (dispatchTable.map rowSize).sum := by rw [List.map_congr_left countP_rowMatches_eq_rowSize]
    _ = 43922 := by decide

/-- Settles O12: the rows are exclusive because the decoder answers one instruction; each row's words are counted digit by
digit, and the words that match some row by the sum over the exclusive rows. -/
theorem dispatchRowsAreExclusive : Obligations.DispatchRowsAreExclusive :=
  ⟨rfl, fun _ _ _ hj hk => row_unique hj hk, countP_rowMatches_eq_rowSize, countP_some_row,
    countP_not _ _ _ _ countP_some_row (by rw [List.length_range])⟩

end Sys2Proof
end

section
/-! PROOFS. O14 and O15: the step on a word that decodes and on one that does not (30_encoding.md R54, R56, R61). -/

namespace Sys2Proof.Machine

/-- R130, R132: every instruction answers a next state. -/
theorem exec_completes (i : Instr) (s : State) : ∃ t, exec i s = .next t := by
  cases i
  case ret =>
    rcases List.eq_nil_or_concat s.stack with hs | ⟨below, top, hs⟩
    · exact ⟨_, exec_ret_empty s hs⟩
    · exact ⟨_, exec_ret_pop s below top (hs.trans List.concat_eq_append)⟩
  case call nnn =>
    rcases Nat.lt_or_ge s.stack.length s.params.stackDepth with hs | hs
    · exact ⟨_, exec_call_room s nnn hs⟩
    · exact ⟨_, exec_call_full s nnn hs⟩
  case ldVxK x =>
    cases hs : s.firstPressed with
    | none => exact ⟨_, exec_ldVxK_none s x hs⟩
    | some k => exact ⟨_, exec_ldVxK_pressed s x k hs⟩
  all_goals exact ⟨_, rfl⟩

/-- Settles O14: the two bytes at pc make the fetched word. -/
theorem stepRunsTheDecodedInstruction : Obligations.StepRunsTheDecodedInstruction := by
  intro s i h
  have hi : s.current = some i := (current_eq_some s i).2 ((decode_two _ _ _ i []).1 h).1
  obtain ⟨t, ht⟩ := exec_completes i s.begin
  exact ⟨t, ht, (step_of_current hi).trans (finishStep_eq_next.2 ⟨t, ht, rfl⟩)⟩

/-- Settles O15: no instruction is at pc, so only the pre-increment, the flag and the tick are left. -/
theorem unmatchedWordDoesNothing : Obligations.UnmatchedWordDoesNothing := by
  rintro s _ rfl hd
  have hnone : s.current = none := by simp [State.current, hd]
  exact step_of_no_current hnone

end Sys2Proof.Machine
end

section
/-! PROOFS. O60 and O26 to O29: screen clear, return, jump and call (40_flow.md R70 to R73). -/

namespace Sys2Proof.Machine

/-! ### The stack pointer follows the stack (10_state.md R16) -/

section
variable {s t : State} {w : Word}

/-- Two states with the same stack have the same stack pointer. -/
theorem sp_congr (h : t.stack = s.stack) : t.sp = s.sp := by simp [State.sp, h]

theorem sp_of_stack_eq_concat (h : t.stack = s.stack ++ [w]) : t.sp = s.sp + 1#16 := by
  simp [State.sp, h, BitVec.ofNat_add]

theorem sp_of_concat_eq_stack (h : s.stack = t.stack ++ [w]) : t.sp = s.sp - 1#16 := by
  rw [sp_of_stack_eq_concat h, BitVec.add_sub_cancel]

/-! ### The steps of a CALL that finds room and of a RET -/

theorem eq_of_step_call {nnn : Addr12} (hc : s.current = some (.call nnn))
    (hroom : s.stack.length < s.params.stackDepth) (h : step s = .next t) :
    t = ((s.begin.push (s.pc + 2#16)).jump (addrWord nnn)).tick := by
  obtain ⟨u, hu, rfl⟩ := exec_of_step hc h
  cases (exec_call_room s.begin nnn hroom).symm.trans hu
  rfl

theorem eq_of_step_ret_pop {below : List Word} {top : Word} (hc : s.current = some .ret)
    (hs : s.stack = below ++ [top]) (h : step s = .next t) : t = (s.begin.pop.jump top).tick := by
  obtain ⟨u, hu, rfl⟩ := exec_of_step hc h
  cases (exec_ret_pop s.begin below top hs).symm.trans hu
  rfl

theorem eq_of_step_ret_empty (hc : s.current = some .ret) (hs : s.stack = []) (h : step s = .next t) :
    t = s.begin.tick := by
  obtain ⟨u, hu, rfl⟩ := exec_of_step hc h
  cases (exec_ret_empty s.begin hs).symm.trans hu
  rfl

end

/-! ### The obligations -/

/-- Settles O60: the RET finds on the stack the address that the CALL pushed. -/
theorem callThenRetComesBack : Obligations.CallThenRetComesBack := by
  intro s t u nnn hcall hroom hst hret htu
  have ht := eq_of_step_call hcall hroom hst
  have hpush : t.stack = s.stack ++ [s.pc + 2#16] := by rw [ht]; rfl
  have hregs : t.v = s.v := by rw [ht]; rfl
  have hu := eq_of_step_ret_pop hret hpush htu
  have hpop : u.stack = s.stack := by simp [hu, hpush]
  exact ⟨by rw [hu]; rfl, hpop, sp_congr hpop, reg_congr (by rw [hu]; exact hregs)⟩

/-- Settles O26: the empty list of lit cells reads as 0 everywhere. -/
theorem clsClearsEveryCell : Obligations.ClsClearsEveryCell :=
  ⟨decodeWord_encode .cls, fun s => ⟨_, exec_cls s, fun _ => rfl, rfl, fun _ => rfl, fun _ => rfl⟩⟩

/-- Settles O27: RET pops a top entry into pc; on an empty stack only the pre-increment and the tick are left of its step. -/
theorem retPopsIntoPc : Obligations.RetPopsIntoPc := by
  refine ⟨decodeWord_encode .ret, fun s below top hs => ?_, exec_ret_empty, fun s t hc hs h => ?_⟩
  · have hpop : (s.pop.jump top).stack = below := by simp [hs]
    have hsp : (s.pop.jump top).sp = s.sp - 1#16 := sp_of_concat_eq_stack (hs.trans (by rw [hpop]))
    exact ⟨_, exec_ret_pop s below top hs, rfl, hpop, hsp, rfl, fun _ => rfl⟩
  · obtain rfl := eq_of_step_ret_empty hc hs h
    exact ⟨BitVec.toNat_add .., hs, fun _ => rfl⟩

/-- Settles O28: the word is JP's encoding, and JP is one jump to NNN. -/
theorem jpLoadsPc : Obligations.JpLoadsPc :=
  fun nnn s => ⟨decodeWord_encode (.jp nnn), _, exec_jp s nnn, toNat_addrWord nnn, rfl, fun _ => rfl⟩

/-- Settles O29: by the two outcomes of CALL, a push and a jump where there is room and nothing on a full stack. -/
theorem callPushesPcAndJumps : Obligations.CallPushesPcAndJumps := by
  refine fun nnn s => ⟨decodeWord_encode (.call nnn), fun hroom => ?_, exec_call_full s nnn⟩
  have hsp : ((s.push s.pc).jump (addrWord nnn)).sp = s.sp + 1#16 := sp_of_stack_eq_concat rfl
  exact ⟨_, exec_call_room s nnn hroom, rfl, hsp, toNat_addrWord nnn, rfl, fun _ => rfl⟩

end Sys2Proof.Machine
end

section
/-! PROOFS. O30 and O31: the skips on an immediate and on two registers (41_skips.md R80 to R83). -/

namespace Sys2Proof.Machine

section
variable (s : State)

/-- A skip changes nothing but pc. -/
theorem onlyPc_skipIf (c : Bool) : OnlyPc s (s.skipIf c) := by
  cases c
  · exact ⟨rfl, fun _ => rfl⟩
  · exact ⟨rfl, fun _ => rfl⟩

theorem toNat_pc_skipIf_true : (s.skipIf true).pc.toNat = (s.pc.toNat + 2) % 65536 := BitVec.toNat_add ..

end

/-- What an instruction does whose answer is a skip on c, where P says when it skips and Q when it does not. -/
theorem exec_skip_outcomes {s : State} {i : Instr} {c : Bool} {P Q : Prop} (h : exec i s = .next (s.skipIf c))
    (hskip : P → c = true) (hstay : Q → c = false) :
    ∃ t, exec i s = .next t ∧ OnlyPc s t ∧ (P → t.pc.toNat = (s.pc.toNat + 2) % 65536) ∧ (Q → t.pc = s.pc) := by
  refine ⟨_, h, onlyPc_skipIf s c, fun hP => ?_, fun hQ => ?_⟩
  · rw [hskip hP, toNat_pc_skipIf_true]
  · rw [hstay hQ]
    rfl

/-- Settles O30: SE skips on equality and SNE on inequality of V[X] and KK. -/
theorem skipsOnAnImmediate : Obligations.SkipsOnAnImmediate := fun x kk s =>
  ⟨decodeWord_encode (.seVxKK x kk), decodeWord_encode (.sneVxKK x kk),
    exec_skip_outcomes (exec_seVxKK s x kk) beq_iff_eq.2 beq_eq_false_iff_ne.2,
    exec_skip_outcomes (exec_sneVxKK s x kk) bne_iff_ne.2 bne_eq_false_iff_eq.2⟩

/-- Settles O31: SE skips on equality and SNE on inequality of V[X] and V[Y]. -/
theorem skipsOnTwoRegisters : Obligations.SkipsOnTwoRegisters := fun x y s =>
  ⟨decodeWord_encode (.seVxVy x y), decodeWord_encode (.sneVxVy x y),
    exec_skip_outcomes (exec_seVxVy s x y) beq_iff_eq.2 beq_eq_false_iff_ne.2,
    exec_skip_outcomes (exec_sneVxVy s x y) bne_iff_ne.2 bne_eq_false_iff_eq.2⟩

end Sys2Proof.Machine
end

section
/-! PROOFS. O34 and O35: load and add immediate (42_immediate.md R84, R85). -/

namespace Sys2Proof.Machine

section
variable (s : State) (x : Reg) (b : Byte)

@[simp] theorem reg_setReg_self : (s.setReg x b).reg x = b := by
  rw [reg_setReg, if_pos rfl]

/-- A write of V[X] changes nothing but V[X]. -/
theorem onlyRegs_setReg : OnlyRegs [x] s (s.setReg x b) := by
  refine ⟨rfl, fun r hr => ?_, fun _ => rfl⟩
  have hrx : r ≠ x := by simpa using hr
  rw [reg_setReg, if_neg hrx]

end

theorem toNat_sumByte (a b : Byte) : (sumByte a b).toNat = (a.toNat + b.toNat) % 256 := BitVec.toNat_ofNat ..

/-- Settles O34: the word is LD's encoding, and LD is one write of V[X], whether or not X = 0xF. -/
theorem ldLoadsTheImmediate : Obligations.LdLoadsTheImmediate := fun x kk s =>
  ⟨decodeWord_encode (.ldVxKK x kk), _, exec_ldVxKK s x kk, reg_setReg_self s x kk, onlyRegs_setReg s x kk⟩

/-- Settles O35: the word is ADD's encoding, and ADD is one write of V[X], with the sum modulo 256. -/
theorem addAddsTheImmediate : Obligations.AddAddsTheImmediate := by
  refine fun x kk s => ⟨decodeWord_encode (.addVxKK x kk), _, exec_addVxKK s x kk, ?_, onlyRegs_setReg s x _⟩
  rw [reg_setReg_self, toNat_sumByte]

end Sys2Proof.Machine
end

section
/-! PROOFS. O36 to O39: copy, logic, addition, subtraction and shifts on registers (43_alu.md R91 to R99). The instructions with
a flag differ in the flag and the result only, so what the two shared writes of 30_encoding.md R64 leave is said once. -/

namespace Sys2Proof.Machine

/-! ### The flag and the results -/

theorem flagByte_carryOut (a b : Byte) : flagByte (carryOut a b) = if 255 < a.toNat + b.toNat then 1#8 else 0#8 := by
  simp [flagByte, carryOut]

theorem toNat_flagByte_lowBit (a : Byte) : (flagByte (lowBit a)).toNat = a.toNat % 2 := by
  have hbit : lowBit a = decide (a.toNat % 2 = 1) := Nat.testBit_zero a.toNat
  rcases Nat.mod_two_eq_zero_or_one a.toNat with h | h <;> simp [hbit, flagByte, h]

/-- The difference of two bytes is a byte, so its reduction to 8 bits loses nothing. -/
theorem toNat_diffByte (a b : Byte) : (diffByte a b).toNat = a.toNat - b.toNat :=
  (BitVec.toNat_ofNat ..).trans (Nat.mod_eq_of_lt (Nat.lt_of_le_of_lt (Nat.sub_le ..) a.isLt))

theorem toNat_shiftRightByte (a : Byte) : (shiftRightByte a).toNat = a.toNat / 2 :=
  (BitVec.toNat_ofNat ..).trans (Nat.mod_eq_of_lt (Nat.lt_of_le_of_lt (Nat.div_le_self ..) a.isLt))

theorem toNat_shiftLeftByte (a : Byte) : (shiftLeftByte a).toNat = 2 * a.toNat % 256 := BitVec.toNat_ofNat ..

/-! ### The write of a flag and a result, and the subtraction -/

section
variable (s : State) (x : Reg)

/-- D7: the result is read back from V[X] even if X = 0xF. -/
@[simp] theorem reg_setFlagThenReg_self (c : Bool) (b : Byte) : (s.setFlagThenReg x c b).reg x = b := by
  rw [reg_setFlagThenReg, if_pos rfl]

theorem reg_setFlagThenReg_regF {x : Reg} (c : Bool) (b : Byte) (hx : x ≠ regF) :
    (s.setFlagThenReg x c b).reg regF = flagByte c := by
  rw [reg_setFlagThenReg, if_neg hx.symm, if_pos rfl]

/-- A write of V[X] after one of VF changes nothing but V[X] and VF. -/
theorem onlyRegs_setFlagThenReg (c : Bool) (b : Byte) : OnlyRegs [x, regF] s (s.setFlagThenReg x c b) := by
  refine ⟨rfl, fun r hr => ?_, fun _ => rfl⟩
  obtain ⟨hx, hf⟩ : r ≠ x ∧ r ≠ regF := by simpa using hr
  rw [reg_setFlagThenReg, if_neg hx, if_neg hf]

theorem subtractInto_of_lt {a b : Byte} (h : b.toNat < a.toNat) :
    s.subtractInto x a b = s.setFlagThenReg x true (diffByte a b) :=
  if_pos (decide_eq_true h)

theorem subtractInto_of_le {a b : Byte} (h : a.toNat ≤ b.toNat) : s.subtractInto x a b = s.setReg regF 0#8 :=
  if_neg (by simpa [noBorrow] using h)

/-- The subtraction changes nothing but V[X] and VF. -/
theorem onlyRegs_subtractInto (a b : Byte) : OnlyRegs [x, regF] s (s.subtractInto x a b) := by
  rcases Nat.lt_or_ge b.toNat a.toNat with h | h
  · rw [subtractInto_of_lt s x h]
    exact onlyRegs_setFlagThenReg s x true _
  · rw [subtractInto_of_le s x h]
    obtain ⟨hregs, hread, hmem⟩ := onlyRegs_setReg s regF 0#8
    exact ⟨hregs, fun r hr => hread r (List.not_mem_of_not_mem_cons hr), hmem⟩

end

section
variable {s : State} {i : Instr} {x : Reg}

/-- What an instruction does whose answer is the subtraction a - b into V[X]. -/
theorem exec_subtract_outcomes {a b : Byte} (h : exec i s = .next (s.subtractInto x a b)) :
    ∃ t, exec i s = .next t ∧ OnlyRegs [x, regF] s t ∧
      (b.toNat < a.toNat → (t.reg x).toNat = a.toNat - b.toNat ∧ (x ≠ regF → t.reg regF = 1#8)) ∧
      (a.toNat ≤ b.toNat → (x ≠ regF → t.reg x = s.reg x) ∧ t.reg regF = 0#8) := by
  refine ⟨_, h, onlyRegs_subtractInto s x a b, fun hlt => ?_, fun hle => ?_⟩
  · rw [subtractInto_of_lt s x hlt, reg_setFlagThenReg_self, toNat_diffByte]
    exact ⟨rfl, reg_setFlagThenReg_regF s true _⟩
  · rw [subtractInto_of_le s x hle, reg_setReg_self]
    exact ⟨fun hx => by rw [reg_setReg, if_neg hx], rfl⟩

/-- What an instruction does whose answer is V[X] replaced by b and bit 0 of a as the flag. -/
theorem exec_shift_outcome {a b : Byte} {n : Nat} (h : exec i s = .next (s.setFlagThenReg x (lowBit a) b))
    (hb : b.toNat = n) :
    ∃ t, exec i s = .next t ∧ OnlyRegs [x, regF] s t ∧ (t.reg x).toNat = n ∧
      (x ≠ regF → (t.reg regF).toNat = a.toNat % 2) := by
  refine ⟨_, h, onlyRegs_setFlagThenReg s x _ b, ?_, fun hx => ?_⟩
  · rw [reg_setFlagThenReg_self, hb]
  · rw [reg_setFlagThenReg_regF s _ b hx, toNat_flagByte_lowBit]

/-- What an instruction does whose answer is one write of V[X]. -/
theorem exec_setReg_outcome {b : Byte} (h : exec i s = .next (s.setReg x b)) :
    ∃ t, exec i s = .next t ∧ t.reg x = b ∧ OnlyRegs [x] s t :=
  ⟨_, h, reg_setReg_self s x b, onlyRegs_setReg s x b⟩

end

/-! ### The obligations -/

/-- Settles O36: each of the four is one write of V[X]. -/
theorem copyAndLogicLeaveVfAlone : Obligations.CopyAndLogicLeaveVfAlone := fun x y s =>
  ⟨⟨decodeWord_encode (.ldVxVy x y), exec_setReg_outcome (exec_ldVxVy s x y)⟩,
    ⟨decodeWord_encode (.orVxVy x y), exec_setReg_outcome (exec_orVxVy s x y)⟩,
    ⟨decodeWord_encode (.andVxVy x y), exec_setReg_outcome (exec_andVxVy s x y)⟩,
    ⟨decodeWord_encode (.xorVxVy x y), exec_setReg_outcome (exec_xorVxVy s x y)⟩⟩

/-- Settles O37: the flag is the carry of the old operands, and the sum is written after it. -/
theorem addRecordsTheCarry : Obligations.AddRecordsTheCarry := by
  refine fun x y s =>
    ⟨decodeWord_encode (.addVxVy x y), _, exec_addVxVy s x y, ?_, fun hx => ?_, onlyRegs_setFlagThenReg s x _ _⟩
  · rw [reg_setFlagThenReg_self, toNat_sumByte]
  · rw [reg_setFlagThenReg_regF s _ _ hx, flagByte_carryOut]

/-- Settles O38: both are the one subtraction, with the operands exchanged. -/
theorem subtractionNeverWraps : Obligations.SubtractionNeverWraps := fun x y s =>
  ⟨decodeWord_encode (.subVxVy x y), decodeWord_encode (.subnVxVy x y),
    exec_subtract_outcomes (exec_subVxVy s x y), exec_subtract_outcomes (exec_subnVxVy s x y)⟩

/-- Settles O39: both write bit 0 of the old V[X] as the flag, and then V[X] shifted. -/
theorem shiftsReportBitZero : Obligations.ShiftsReportBitZero := fun x y s =>
  ⟨decodeWord_encode (.shrVx x y), decodeWord_encode (.shlVx x y),
    exec_shift_outcome (exec_shrVx s x y) (toNat_shiftRightByte _),
    exec_shift_outcome (exec_shlVx s x y) (toNat_shiftLeftByte _)⟩

end Sys2Proof.Machine
end

section
/-! PROOFS. O42, O32 and O40: the random byte, the computed jump and the index load (44_index_jump_random.md R101 to R103). -/

namespace Sys2Proof.Machine

/-! ### The random input (10_state.md R22, D20) -/

section
variable {s u : State} {b : Byte} {later : List Byte}

theorem rnd_of_driven (h : s.rndIn = b :: later) : s.rnd = b := by simp [State.rnd, h]

theorem consumeRnd_of_driven (h : s.rndIn = b :: later) : s.consumeRnd = { s with rndIn := later } := by
  simp [State.consumeRnd, h]

theorem rnd_of_free (h : s.rndIn = []) : s.rnd = Config.freeRnd s.draws := by simp [State.rnd, h]

theorem consumeRnd_of_free (h : s.rndIn = []) : s.consumeRnd = { s with draws := s.draws + 1 } := by
  simp [State.consumeRnd, h]

/-- What CXKK does where b stands on the port and u is the state with that draw used up. -/
theorem exec_rndVxKK_outcome (x : Reg) (kk : Byte) (hb : s.rnd = b) (hu : s.consumeRnd = u) :
    ∃ t, exec (.rndVxKK x kk) s = .next t ∧ t.reg x = b &&& kk ∧ (∀ r, r ≠ x → t.reg r = s.reg r) ∧
      t = { u with v := t.v } ∧ ∀ a : Nat, t.readByte a = s.readByte a := by
  subst hb hu
  refine ⟨_, exec_rndVxKK s x kk, reg_setReg_self .., fun r hr => ?_, rfl, readByte_congr ?_ ?_⟩
  · rw [reg_setReg, if_neg hr, reg_consumeRnd]
  · exact s.consumeRnd_mem
  · exact s.consumeRnd_params

end

/-- Settles O42: the drawn byte is the driven one where there is one, and the free one otherwise. -/
theorem rndMasksTheDrawnByte : Obligations.RndMasksTheDrawnByte := by
  refine fun x kk s => ⟨decodeWord_encode (.rndVxKK x kk), fun b later h => ?_, fun h => ?_, fun b h => ?_⟩
  · exact exec_rndVxKK_outcome x kk (rnd_of_driven h) (consumeRnd_of_driven h)
  · exact exec_rndVxKK_outcome x kk (rnd_of_free h) (consumeRnd_of_free h)
  · rw [State.driveRnd_rndIn, h, List.nil_append]

/-! ### The computed jump and the index load -/

/-- A 12-bit address plus a byte stays below 65536, so the 16-bit sum is the exact one. -/
theorem toNat_addrWord_add_byteWord (nnn : Addr12) (b : Byte) :
    (addrWord nnn + byteWord b).toNat = nnn.toNat + b.toNat := by
  have hlt : nnn.toNat + b.toNat < 2 ^ 16 := by omega
  rw [BitVec.toNat_add, toNat_addrWord, toNat_byteWord, Nat.mod_eq_of_lt hlt]

/-- Settles O32: the word is JP V0's encoding, and JP V0 is one jump to the sum. -/
theorem jpV0AddsV0 : Obligations.JpV0AddsV0 := fun nnn s =>
  ⟨decodeWord_encode (.jpV0NNN nnn), _, exec_jpV0NNN s nnn, toNat_addrWord_add_byteWord nnn _, rfl, fun _ => rfl⟩

/-- Settles O40: the word is LD's encoding, and LD is one write of I. -/
theorem ldLoadsTheIndex : Obligations.LdLoadsTheIndex := fun nnn s =>
  ⟨decodeWord_encode (.ldINNN nnn), _, exec_ldINNN s nnn, toNat_addrWord nnn, rfl, fun _ => rfl⟩

end Sys2Proof.Machine
end

section
/-! PROOFS. O43 to O45: the draw (45_draw.md R105 to R108). The list of cells that the loops of R106 walk holds the covered
cells, each once; so one draw is described cell by cell, and two draws are composed from that description. -/

namespace Sys2Proof.Machine

/-! ### The framebuffer address (R105) -/

/-- Settles O43: a row has 64 = 2^6 cells, so the column's six bits stand below the row's five. -/
theorem framebufferAddressIsAConcatenation : Obligations.FramebufferAddressIsAConcatenation := by
  intro x y
  have hcol : x.toNat % 64 < 2 ^ 6 := Nat.mod_lt _ (by decide)
  calc fbIndex x.toNat y.toNat = 2 ^ 6 * (y.toNat % 32) + x.toNat % 64 := congrArg (· + _) (Nat.mul_comm ..)
    _ = (y.toNat % 32) <<< 6 ||| x.toNat % 64 := by rw [Nat.two_pow_add_eq_or_of_lt hcol, Nat.shiftLeft_eq, Nat.mul_comm]
    _ = (y.extractLsb' 0 5 ++ x.extractLsb' 0 6).toNat := by
      rw [BitVec.toNat_append, BitVec.extractLsb'_toNat, BitVec.extractLsb'_toNat]
      rfl

/-! ### The drawn cells are the covered ones (R105 to R107) -/

section
variable {s t : State} {x y : Reg} {n : Nibble} {k : Nat}

theorem mem_spriteCells_iff_covered :
    k ∈ s.spriteCells (s.reg x) (s.reg y) s.i.toNat n.toNat ↔ s.covered x y n k := by
  rw [mem_spriteCells]
  exact exists₂_congr fun r c => and_congr_right' (and_congr_right' (and_congr_right' eq_comm))

/-- Which cells are covered depends on the coordinates, I and the sprite bytes only. -/
theorem covered_congr (hi : t.i = s.i) (hx : t.reg x = s.reg x) (hy : t.reg y = s.reg y)
    (hbytes : ∀ r : Nat, r < n.toNat → t.readByte (s.i.toNat + r) = s.readByte (s.i.toNat + r)) :
    t.covered x y n k ↔ s.covered x y n k := by
  unfold State.covered
  rw [hi, hx, hy]
  exact exists₂_congr fun r c => and_congr_right fun hr => by rw [hbytes r hr]

/-! ### One draw, cell by cell (R106) -/

theorem nodup_drawnCells (s : State) (x0 y0 : Byte) (base : Nat) (n : Nibble) :
    (s.spriteCells x0 y0 base n.toNat).Nodup :=
  nodup_spriteCells s x0 y0 base n.toNat (by omega)

theorem pixel_draw_of_covered (h : exec (.drwVxVyN x y n) s = .next t) (hk : s.covered x y n k) :
    t.pixel k = s.pixel k ^^^ s.params.pixelOn := by
  cases h
  exact toggleCells_of_mem _ _ _ _ _ (nodup_drawnCells ..) (mem_spriteCells_iff_covered.2 hk)

theorem pixel_draw_of_not_covered (h : exec (.drwVxVyN x y n) s = .next t) (hk : ¬ s.covered x y n k) :
    t.pixel k = s.pixel k := by
  cases h
  exact toggleCells_of_not_mem _ _ _ _ _ (mt mem_spriteCells_iff_covered.1 hk)

/-- The two outcomes of the flag, which exclude each other. -/
theorem regF_draw (h : exec (.drwVxVyN x y n) s = .next t) :
    t.reg regF = 1#8 ∧ (∃ k, s.covered x y n k ∧ s.pixel k ≠ 0#32) ∨
      t.reg regF = 0#8 ∧ ∀ k, s.covered x y n k → s.pixel k = 0#32 := by
  cases h
  rw [reg_drawCells, if_pos rfl, toggleCells_hit _ _ _ _ (nodup_drawnCells ..), Bool.false_or]
  cases hany : (s.spriteCells (s.reg x) (s.reg y) s.i.toNat n.toNat).any fun k => decide (fbRead s.fb k ≠ 0#32) with
  | true =>
    obtain ⟨k, hk, hlit⟩ := List.any_eq_true.1 hany
    exact .inl ⟨rfl, k, mem_spriteCells_iff_covered.1 hk, of_decide_eq_true hlit⟩
  | false =>
    refine .inr ⟨rfl, fun k hk => ?_⟩
    have hdark := List.any_eq_false.1 hany k (mem_spriteCells_iff_covered.2 hk)
    exact by_contra fun hlit => hdark (decide_eq_true hlit)

theorem regF_draw_eq_one_iff (h : exec (.drwVxVyN x y n) s = .next t) :
    t.reg regF = 1#8 ↔ ∃ k, s.covered x y n k ∧ s.pixel k ≠ 0#32 := by
  rcases regF_draw h with ⟨hf, hlit⟩ | ⟨hf, hdark⟩
  · exact iff_of_true hf hlit
  · exact iff_of_false (by simp [hf]) fun ⟨k, hk, hlit⟩ => hlit (hdark k hk)

end

/-- Settles O44: the draw is the loop over the covered cells, and then the write of the flag. -/
theorem drawTogglesExactlyTheCoveredCells : Obligations.DrawTogglesExactlyTheCoveredCells := by
  intro x y n s
  have h := exec_drwVxVyN s x y n
  refine ⟨decodeWord_encode (.drwVxVyN x y n), _, h, fun k => pixel_draw_of_covered h,
    fun k => pixel_draw_of_not_covered h, (regF_draw_eq_one_iff h).2, fun hdark => ?_, fun r hr => ?_, rfl, fun _ => rfl⟩
  · rcases regF_draw h with ⟨-, k, hk, hlit⟩ | ⟨hf, -⟩
    · exact absurd (hdark k hk) hlit
    · exact hf
  · rw [reg_drawCells, if_neg hr]

/-! ### Two draws of the same sprite (R108) -/

/-- Settles O45: both draws cover the same cells, toggling a cell twice restores it, and a cell is lit after the first toggle
exactly when it was dark before it. -/
theorem drawingTwiceRestoresTheScreen : Obligations.DrawingTwiceRestoresTheScreen := by
  intro x y n s t u w hinv hst hfb hparams hi hx hy hbytes huw
  have hcov (k : Nat) : u.covered x y n k ↔ s.covered x y n k := covered_congr hi hx hy hbytes
  have hfirst {k : Nat} (hk : s.covered x y n k) : u.pixel k = s.pixel k ^^^ s.params.pixelOn :=
    (pixel_congr hfb k).trans (pixel_draw_of_covered hst hk)
  refine ⟨fun k => ?_, ?_, (regF_draw huw).symm.imp And.left And.left⟩
  · by_cases hk : s.covered x y n k
    · rw [pixel_draw_of_covered huw ((hcov k).2 hk), hfirst hk, hparams, BitVec.xor_assoc, BitVec.xor_self,
        BitVec.xor_zero]
    · rw [pixel_draw_of_not_covered huw (mt (hcov k).1 hk), pixel_congr hfb, pixel_draw_of_not_covered hst hk]
  · rw [regF_draw_eq_one_iff huw]
    refine exists_congr fun k => (and_congr_left' (hcov k)).trans (and_congr_right fun hk => ?_)
    rw [hfirst hk]
    exact (not_congr ((twoToned_of_inv hinv).xor_eq_zero_iff k)).trans not_not

end Sys2Proof.Machine
end

section
/-! PROOFS. O33: the skips on the keypad latch (46_key_skip.md R110 to R112). -/

namespace Sys2Proof.Machine

section
variable {s : State} {b : Byte} {k : BitVec 4}

/-- The key that a byte names is the one with the byte's value modulo 16 as its number (R110, D11). -/
theorem keyNumber_eq_of_toNat_eq (h : k.toNat = b.toNat % 16) : keyNumber b = k := by
  rw [keyNumber, ← h, BitVec.ofNat_toNat, BitVec.setWidth_eq]

/-- A key is pressed when its latch cell is nonzero (R110, D12). -/
theorem keyPressed_eq_true_iff (h : k.toNat = b.toNat % 16) : s.keyPressed b = true ↔ s.key k ≠ 0#8 := by
  rw [State.keyPressed, keyNumber_eq_of_toNat_eq h, decide_eq_true_iff]

theorem keyPressed_eq_false_iff (h : k.toNat = b.toNat % 16) : s.keyPressed b = false ↔ s.key k = 0#8 := by
  rw [← Bool.not_eq_true, keyPressed_eq_true_iff h, not_not]

end

/-- Settles O33: SKP skips when the key that V[X] names is pressed, and SKNP when it is not. -/
theorem skipsOnAKey : Obligations.SkipsOnAKey := fun x s _ h =>
  have hpressed := (keyPressed_eq_true_iff h).2
  have hreleased := (keyPressed_eq_false_iff h).2
  ⟨decodeWord_encode (.skpVx x), decodeWord_encode (.sknpVx x),
    exec_skip_outcomes (exec_skpVx s x) hpressed hreleased,
    exec_skip_outcomes (exec_sknpVx s x) (fun hk => congrArg not (hreleased hk))
      (fun hk => congrArg not (hpressed hk))⟩

end Sys2Proof.Machine
end

section
/-! PROOFS. O16, O17 and O47 to O49: every step completes, with one timer tick at its end (60_exceptions.md R130, R132,
R140, R141), and FX07 and FX15 read and write the timer before that tick (47_timer_keywait.md R115, R116). -/

namespace Sys2Proof.Machine

/-- R132: what follows the instruction, the tick, stops no step either. -/
theorem step_completes (s : State) : ∃ t, step s = .next t := by
  cases hc : s.current with
  | none => exact ⟨_, step_of_no_current hc⟩
  | some i =>
    obtain ⟨u, hu⟩ := exec_completes i s.begin
    exact ⟨u.tick, (step_of_current hc).trans (finishStep_eq_next.2 ⟨u, hu, rfl⟩)⟩

/-- Settles O16, by the two lemmas that say it of a step and of an instruction. -/
theorem everyStepCompletes : Obligations.EveryStepCompletes := ⟨step_completes, exec_completes⟩

/-! ### The timer over one step -/

theorem Effect.dt {s u : State} {i : Instr} (h : Effect s i u) (hi : ∀ x, i ≠ .ldDTVx x) : u.dt = s.dt := by
  cases h with
  | ldDTVx x => exact absurd rfl (hi x)
  | store | rndVxKK => simp
  | _ => rfl

section
variable {s t : State} {x : Reg}

theorem dt_of_step (h : step s = .next t) (hs : s.leavesTimer) : t.dt = tickByte s.dt := by
  rcases step_effect h with ⟨i, u, hi, he, rfl⟩ | ⟨-, rfl⟩
  · simp only [State.leavesTimer, hi, ne_eq, Option.some.injEq] at hs
    rw [State.tick_dt, he.dt hs, State.begin_dt]
  · rfl

theorem toNat_dt_of_step (h : step s = .next t) (hs : s.leavesTimer) : t.dt.toNat = s.dt.toNat - 1 := by
  rw [dt_of_step h hs, toNat_tickByte]

theorem dt_of_step_ldDTVx (hc : s.current = some (.ldDTVx x)) (h : step s = .next t) : t.dt = tickByte (s.reg x) := by
  obtain ⟨u, hu, rfl⟩ := exec_of_step hc h
  cases hu
  rfl

theorem toNat_dt_of_step_ldDTVx (hc : s.current = some (.ldDTVx x)) (h : step s = .next t) :
    t.dt.toNat = (s.reg x).toNat - 1 := by
  rw [dt_of_step_ldDTVx hc h, toNat_tickByte]

theorem reg_of_step_ldVxDT (hc : s.current = some (.ldVxDT x)) (h : step s = .next t) : t.reg x = s.dt := by
  obtain ⟨u, hu, rfl⟩ := exec_of_step hc h
  cases hu
  exact reg_setReg_self ..

theorem leavesTimer_of_current {i : Instr} (hc : s.current = some i) (hi : ∀ x, i ≠ .ldDTVx x) : s.leavesTimer :=
  fun x hx => hi x (Option.some.inj (hc.symm.trans hx))

end

/-- Settles O17: the tick follows the effect of the instruction at pc, and only FX15's writes the timer. -/
theorem timerTicksOnceInEveryStep : Obligations.TimerTicksOnceInEveryStep :=
  fun _ _ h => ⟨dt_of_step h, fun _ hc => dt_of_step_ldDTVx hc h⟩

/-- Settles O47: FX07 is one write of V[X] with the timer, and the tick comes after it. -/
theorem ldReadsTheTimer : Obligations.LdReadsTheTimer := fun x s =>
  ⟨decodeWord_encode (.ldVxDT x), exec_setReg_outcome (exec_ldVxDT s x), fun _ hc h =>
    ⟨reg_of_step_ldVxDT hc h, toNat_dt_of_step h (leavesTimer_of_current hc fun _ hi => nomatch hi)⟩⟩

/-- Settles O48: FX15 is one write of the timer, and the tick comes after it. -/
theorem ldWritesTheTimer : Obligations.LdWritesTheTimer := fun x s =>
  ⟨decodeWord_encode (.ldDTVx x), ⟨_, exec_ldDTVx s x, rfl, rfl, fun _ => rfl⟩, fun _ => toNat_dt_of_step_ldDTVx⟩

/-! ### The timer over a run -/

/-- R140: in a run none of whose steps writes the timer, each step takes 1 from it, down to 0; the host's actions leave
it alone. -/
theorem HostedRun.toNat_dt {P : State → Prop} {n : Nat} {s t : State} (h : HostedRun P n s t)
    (hP : ∀ m u, HostedRun P m s u → P u → u.leavesTimer) : t.dt.toNat = s.dt.toNat - n := by
  induction h with
  | start => rfl
  | keyWrite _ _ _ _ _ _ ih => exact ih hP
  | driveRnd _ _ _ _ _ ih => exact ih hP
  | step n s t u hst ht htu ih => rw [toNat_dt_of_step htu (hP n t hst ht), ih hP, Nat.sub_sub]

/-- Settles O49: the step of FX15 leaves n - 1 in the timer, and each of the j - 1 later steps takes 1 away. -/
theorem timerCountsStepsSinceTheWrite : Obligations.TimerCountsStepsSinceTheWrite := by
  intro s t u x j hc hst hj hrun
  have hdt : u.dt.toNat = (s.reg x).toNat - j :=
    calc u.dt.toNat = t.dt.toNat - (j - 1) := hrun.toNat_dt fun _ _ _ hu => hu
      _ = (s.reg x).toNat - 1 - (j - 1) := by rw [toNat_dt_of_step_ldDTVx hc hst]
      _ = (s.reg x).toNat - j := by omega
  refine ⟨hdt, fun y v hread huv => ?_⟩
  rw [reg_of_step_ldVxDT hread huv, hdt]

end Sys2Proof.Machine
end

section
/-! PROOFS. O50 and O51: the key wait (47_timer_keywait.md R117). -/

namespace Sys2Proof.Machine

/-- The rewind takes back the pre-increment, so pc is at the waiting instruction again. -/
theorem rewind_begin (s : State) : s.begin.rewind = { s with unimpl := false } := by
  simp [State.begin, State.advance, State.rewind]

/-- Settles O50: the two outcomes of the key scan, which answers the least pressed key if there is one. -/
theorem keyWaitTakesTheLeastPressedKey : Obligations.KeyWaitTakesTheLeastPressedKey := by
  refine fun x s => ⟨decodeWord_encode (.ldVxK x), fun k hk hleast => ?_, fun hnone => ?_⟩
  · refine ⟨_, exec_ldVxK_pressed s x k (firstPressed_eq_some s k hk hleast), ?_, onlyRegs_setReg s x _⟩
    rw [reg_setReg_self]
    exact BitVec.toNat_setWidth_of_le (by decide)
  · exact ⟨_, exec_ldVxK_none s x ((firstPressed_eq_none s).2 hnone), rfl, rfl, fun _ => rfl⟩

/-- Settles O51: the pre-increment and the rewind cancel, and the tick is left. -/
theorem waitingStepChangesOnlyTheTimer : Obligations.WaitingStepChangesOnlyTheTimer := by
  intro s x hc hnone
  rw [step_of_current hc, exec_ldVxK_none s.begin x ((firstPressed_eq_none s).2 hnone), rewind_begin]
  rfl

end Sys2Proof.Machine
end

section
/-! PROOFS. O41 and O54 to O56, O6: the sum into I, the two stores and the load (48_index_memory.md R120 to R123), and the
load of an image (70_reset_and_hazards.md R152), which stores bytes as they do. -/

namespace Sys2Proof.Machine

/-- Settles O41: the word is ADD's encoding, and ADD is one write of I, with the sum modulo 65536. -/
theorem addAddsToTheIndex : Obligations.AddAddsToTheIndex := by
  refine fun x s => ⟨decodeWord_encode (.addIVx x), _, exec_addIVx s x, ?_, rfl, fun _ => rfl⟩
  rw [BitVec.toNat_add, toNat_byteWord]

/-- Storing bytes changes nothing but the bytes at their addresses. -/
theorem onlyBytes_storeBytes (s : State) (a : Nat) (bs : List Byte) : OnlyBytes a bs.length s (s.storeBytes a bs) :=
  ⟨storeBytes_eq s a bs, readByte_storeBytes_of_outside s a bs⟩

/-! ### FX33 -/

/-- A decimal digit of a byte is not above the byte, so its reduction to 8 bits loses nothing. -/
theorem toNat_ofNat_of_le_toNat {n : Nat} {b : Byte} (h : n ≤ b.toNat) : (BitVec.ofNat 8 n).toNat = n :=
  (BitVec.toNat_ofNat ..).trans (Nat.mod_eq_of_lt (Nat.lt_of_le_of_lt h b.isLt))

/-- Settles O54: the three digits are stored at consecutive addresses. -/
theorem ldBStoresThreeDigits : Obligations.LdBStoresThreeDigits := by
  intro x s
  have hread := readByte_storeBytes s s.i.toNat (decimalDigits (s.reg x)) (show 3 ≤ 4096 by decide)
  refine ⟨decodeWord_encode (.ldBVx x), _, exec_ldBVx s x, ?_, ?_, ?_, onlyBytes_storeBytes s _ _⟩
  · exact (congrArg BitVec.toNat (hread 0 (show 0 < 3 by decide))).trans (toNat_ofNat_of_le_toNat (Nat.div_le_self ..))
  · exact (congrArg BitVec.toNat (hread 1 (show 1 < 3 by decide))).trans
      (toNat_ofNat_of_le_toNat ((Nat.mod_le ..).trans (Nat.div_le_self ..)))
  · exact (congrArg BitVec.toNat (hread 2 (show 2 < 3 by decide))).trans (toNat_ofNat_of_le_toNat (Nat.mod_le ..))

/-! ### FX55 and FX65 -/

/-- At most sixteen registers are stored, fewer than memory holds, so none is stored over. -/
theorem readByte_storeBytes_regsUpTo (s : State) {x k : Reg} (a : Nat) (hk : k.toNat ≤ x.toNat) :
    (s.storeBytes a (s.regsUpTo x)).readByte (a + k.toNat) = s.reg k := by
  have hlength := length_regsUpTo s x
  have hfits : (s.regsUpTo x).length ≤ Config.memSize := by
    have := x.isLt
    rw [hlength, Config.memSize]
    omega
  rw [readByte_storeBytes s a _ hfits k.toNat (by omega), getElem_regsUpTo, BitVec.ofNat_toNat, BitVec.setWidth_eq]

/-- Settles O55: the values of V[0] to V[X] are stored at consecutive addresses. -/
theorem blockStoreWritesTheRegisters : Obligations.BlockStoreWritesTheRegisters := by
  refine fun x s => ⟨decodeWord_encode (.ldMemVx x), _, exec_ldMemVx s x,
    fun k => readByte_storeBytes_regsUpTo s _, ?_⟩
  rw [← length_regsUpTo s x]
  exact onlyBytes_storeBytes s _ _

/-- Settles O56: each register up to X has the byte at its address after the load, and the others are as before. -/
theorem blockLoadReadsTheRegisters : Obligations.BlockLoadReadsTheRegisters := by
  refine fun x s => ⟨decodeWord_encode (.ldVxMem x), _, exec_ldVxMem s x,
    fun k hk => ?_, fun k hk => ?_, rfl, fun _ => rfl⟩
  · rw [reg_loadRegs, if_pos hk]
  · rw [reg_loadRegs, if_neg (Nat.not_le.2 hk)]

/-! ### The load of an image -/

theorem loadImage_of_too_long (s : State) {img : List Byte} (h : 0xE00 < img.length) :
    s.loadImage img = .error (.tooLong img.length) :=
  if_neg (mt (imageOk_iff img).1 (Nat.not_le.2 h))

/-- Settles O6: an image that is short enough is stored from 0x200 on. -/
theorem loadPlacesTheImageOrRefusesIt : Obligations.LoadPlacesTheImageOrRefusesIt := by
  refine fun s img => ⟨fun hshort => ?_, loadImage_of_too_long s⟩
  have hload : s.loadImage img = .ok (s.storeBytes 0x200 img) := (loadImage_eq_ok s _ img).2 ⟨hshort, rfl⟩
  exact ⟨_, hload, onlyBytes_storeBytes s 0x200 img, fun _ => readByte_loadImage hload⟩

end Sys2Proof.Machine
end

section
/-! PROOFS. O52 and O53: a finished program, which is at a jump to itself (70_reset_and_hazards.md R154, D28). -/

namespace Sys2Proof.Machine

/-! ### The predicate and its step -/

/-- The word of 1NNN is its code and NNN side by side. -/
theorem encode_jp (nnn : Addr12) : encode (.jp nnn) = 0x1000#16 ||| addrWord nnn := by
  apply BitVec.eq_of_toNat_eq
  rw [encode, wordA, BitVec.toNat_append, BitVec.toNat_or, toNat_addrWord]
  rfl

/-- The 12-bit addresses are those below the size of memory. -/
theorem toNat_lt_memSize_iff (w : Word) : w.toNat < Config.memSize ↔ ∃ nnn : Addr12, w = addrWord nnn := by
  constructor
  · intro h
    refine ⟨w.setWidth 12, BitVec.eq_of_toNat_eq ?_⟩
    rw [toNat_addrWord, BitVec.toNat_setWidth]
    exact (Nat.mod_eq_of_lt h).symm
  · rintro ⟨nnn, rfl⟩
    rw [toNat_addrWord]
    exact nnn.isLt

section
variable {s t : State}

theorem current_eq_some_jp_iff {nnn : Addr12} :
    s.current = some (.jp nnn) ↔ s.fetchWord = 0x1000#16 ||| addrWord nnn := by
  rw [current_eq_some, decodeWord_eq_ok_iff, encode_jp, eq_comm]

theorem finished_iff_word : s.finished = true ↔ s.pc.toNat < Config.memSize ∧ s.fetchWord = 0x1000#16 ||| s.pc := by
  rw [State.finished, Bool.and_eq_true, decide_eq_true_iff, decide_eq_true_iff]

/-- R154: the program has finished when pc is at a jump to pc. -/
theorem finished_iff : s.finished = true ↔ ∃ nnn, s.current = some (.jp nnn) ∧ s.pc = addrWord nnn := by
  rw [finished_iff_word, toNat_lt_memSize_iff]
  constructor
  · rintro ⟨⟨nnn, hpc⟩, hw⟩
    exact ⟨nnn, current_eq_some_jp_iff.2 (hpc ▸ hw), hpc⟩
  · rintro ⟨nnn, hc, hpc⟩
    exact ⟨⟨nnn, hpc⟩, hpc ▸ current_eq_some_jp_iff.1 hc⟩

/-- The jump puts pc back to where the pre-increment found it. -/
theorem step_of_finished (h : s.finished = true) : step s = .next { s with dt := tickByte s.dt, unimpl := false } := by
  obtain ⟨nnn, hc, hpc⟩ := finished_iff.1 h
  rw [step_of_current hc, exec_jp, ← hpc]
  rfl

theorem leavesTimer_of_finished (h : s.finished = true) : s.leavesTimer := by
  obtain ⟨nnn, hc, -⟩ := finished_iff.1 h
  exact leavesTimer_of_current hc fun _ hi => nomatch hi

end

/-- Settles O52: the word at pc is 1NNN with NNN = pc, and the jump undoes the pre-increment. -/
theorem selfLoopChangesOnlyTheTimer : Obligations.SelfLoopChangesOnlyTheTimer := by
  refine ⟨fun s => ?_, fun s => step_of_finished⟩
  simp only [finished_iff, ← BitVec.toNat_inj, toNat_addrWord]

/-! ### Runs of a finished program -/

/-- Only the timer, the inputs that the host drives and the output `unimpl` may differ. -/
def OnlyTimerAndInputs (s t : State) : Prop :=
  t = { s with dt := t.dt, kp := t.kp, rndIn := t.rndIn, unimpl := t.unimpl }

section
variable {P : State → Prop} {n : Nat} {s t : State}

/-- Whether the program has finished depends on pc and memory only. -/
theorem OnlyTimerAndInputs.finished (h : OnlyTimerAndInputs s t) : t.finished = s.finished := by
  rw [h]
  rfl

/-- The invariant of the run: each step is the step of a jump to itself, and the host writes its inputs only. -/
theorem HostedRun.onlyTimerAndInputs (h : HostedRun P n s t) (hs : s.finished = true) : OnlyTimerAndInputs s t := by
  induction h with
  | start => rfl
  | keyWrite n s t k b _ ih =>
    have ht := ih hs
    rw [ht]
    rfl
  | driveRnd n s t b _ ih =>
    have ht := ih hs
    rw [ht]
    rfl
  | step n s t u _ _ htu ih =>
    have ht := ih hs
    cases (step_of_finished (ht.finished.trans hs)).symm.trans htu
    rw [ht]
    rfl

theorem HostedRun.finished (h : HostedRun P n s t) (hs : s.finished = true) : t.finished = true :=
  (h.onlyTimerAndInputs hs).finished.trans hs

end

/-- Settles O53: every state of the run is a finished one, so no step writes the timer. -/
theorem finishedProgramStaysFinished : Obligations.FinishedProgramStaysFinished := fun _ _ _ hs h =>
  ⟨h.finished hs, h.toNat_dt fun _ _ hr _ => leavesTimer_of_finished (hr.finished hs), h.onlyTimerAndInputs hs⟩

end Sys2Proof.Machine
end
